-- ==== Sys2Proof/Word.lean ====
section
/-!
DEFINITION. The word types of the machine (spec/00_scope.md R6, R7): a byte (`V_WIDTH`, a memory cell), a 16-bit word
(an opcode, `I`, `PC`, `SP`), a 12-bit address field, and the two index types (registers `V0..VF`, virtual keys).
All values are unsigned (R7, R133).
-/

namespace Sys2Proof

/-- A memory cell or a general register: 8 bits, unsigned (R21, R32). -/
abbrev Byte := BitVec 8

/-- A 16-bit quantity: an opcode (R80), `I` (R25), `PC` (R23), `SP` (R26). -/
abbrev Word := BitVec 16

/-- The 12-bit address field `nnn` of an opcode (R82, R83). -/
abbrev Addr := BitVec 12

/-- The index of a general register, the `x` or `y` field of an opcode; all 16 are legal (R21, R83). -/
abbrev Reg := Fin 16

/-- The number of a virtual key, `0..15` (R200). -/
abbrev Key := Fin 16

end Sys2Proof
end

