-- ==== Sys2Proof/Syntax.lean ====
section
/-!
DEFINITION. The instructions: one constructor for each of the 35 rows of spec/opcode_table.json (spec/30_encoding.md
R84), in the table's order. Fields are those of the row's format (R81, R82).
-/

namespace Sys2Proof

/-- One instruction, its fields already pulled out of the opcode (R82). `SHR` and `SHL` keep the `y` field, which is
encoded and decoded but ignored by execution (R87, R129, R131). -/
inductive Instr where
  /-- `0nnn`, `SYS addr` -/
  | sys (nnn : Addr)
  /-- `00E0`, `CLS` -/
  | cls
  /-- `00EE`, `RET` -/
  | ret
  /-- `1nnn`, `JP addr` -/
  | jp (nnn : Addr)
  /-- `2nnn`, `CALL addr` -/
  | call (nnn : Addr)
  /-- `3xkk`, `SE Vx, byte` -/
  | seByte (x : Reg) (kk : Byte)
  /-- `4xkk`, `SNE Vx, byte` -/
  | sneByte (x : Reg) (kk : Byte)
  /-- `5xy0`, `SE Vx, Vy` -/
  | seReg (x y : Reg)
  /-- `6xkk`, `LD Vx, byte` -/
  | ldByte (x : Reg) (kk : Byte)
  /-- `7xkk`, `ADD Vx, byte` -/
  | addByte (x : Reg) (kk : Byte)
  /-- `8xy0`, `LD Vx, Vy` -/
  | ldReg (x y : Reg)
  /-- `8xy1`, `OR Vx, Vy` -/
  | orReg (x y : Reg)
  /-- `8xy2`, `AND Vx, Vy` -/
  | andReg (x y : Reg)
  /-- `8xy3`, `XOR Vx, Vy` -/
  | xorReg (x y : Reg)
  /-- `8xy4`, `ADD Vx, Vy` -/
  | addReg (x y : Reg)
  /-- `8xy5`, `SUB Vx, Vy` -/
  | subReg (x y : Reg)
  /-- `8xy6`, `SHR Vx` -/
  | shr (x y : Reg)
  /-- `8xy7`, `SUBN Vx, Vy` -/
  | subnReg (x y : Reg)
  /-- `8xyE`, `SHL Vx` -/
  | shl (x y : Reg)
  /-- `9xy0`, `SNE Vx, Vy` -/
  | sneReg (x y : Reg)
  /-- `Annn`, `LD I, addr` -/
  | ldI (nnn : Addr)
  /-- `Bnnn`, `JP V0, addr` -/
  | jpV0 (nnn : Addr)
  /-- `Cxkk`, `RND Vx, byte` -/
  | rnd (x : Reg) (kk : Byte)
  /-- `Dxyn`, `DRW Vx, Vy, nibble` -/
  | drw (x y : Reg) (n : Fin 16)
  /-- `Ex9E`, `SKP Vx` -/
  | skp (x : Reg)
  /-- `ExA1`, `SKNP Vx` -/
  | sknp (x : Reg)
  /-- `Fx07`, `LD Vx, DT` -/
  | ldVxDt (x : Reg)
  /-- `Fx0A`, `LD Vx, K` -/
  | ldVxK (x : Reg)
  /-- `Fx15`, `LD DT, Vx` -/
  | ldDtVx (x : Reg)
  /-- `Fx18`, `LD ST, Vx` -/
  | ldStVx (x : Reg)
  /-- `Fx1E`, `ADD I, Vx` -/
  | addIVx (x : Reg)
  /-- `Fx29`, `LD F, Vx` -/
  | ldFVx (x : Reg)
  /-- `Fx33`, `LD B, Vx` -/
  | ldBVx (x : Reg)
  /-- `Fx55`, `LD [I], Vx` -/
  | ldMemVx (x : Reg)
  /-- `Fx65`, `LD Vx, [I]` -/
  | ldVxMem (x : Reg)
  deriving DecidableEq, Repr

end Sys2Proof
end

