-- ==== Sys2Proof/WellFormed.lean ====
section
/-!
DEFINITION. Which instructions have an encoding of their own. The field types of `Instr` already hold every field to
its width (R82, R83); the one condition left is the priority of the two fixed patterns over `0nnn` (R84 row 1, R85).
-/

namespace Sys2Proof

/-- `SYS` is tried only after `00E0` and `00EE`, so it never has those two addresses (R85); every other instruction is
well formed at every value of its fields (R83). -/
def Instr.wellFormed (i : Instr) : Bool :=
  match i with
  | .sys nnn => nnn != 0x0E0#12 && nnn != 0x0EE#12
  | _ => true

end Sys2Proof
end

