-- ==== Sys2Proof/Decode.lean ====
section
/-!
DEFINITION. The decoder (spec/30_encoding.md R82, R85), total on every word and every list of bytes, rejecting by name;
then the encoder, written from the patterns of R84.
-/

namespace Sys2Proof

/-- Why the decoder gives no instruction. -/
inductive Reject where
  /-- The word is in the ILLEGAL set of R87: it matches no row of R84. -/
  | illegal (op : Word)
  /-- Fewer than the two bytes of one opcode (R80). -/
  | truncated
  deriving DecidableEq, Repr

/-! ### Fields of an opcode (R82) -/

/-- `c = op[15:12]`, the command nibble. -/
def fieldC (op : Word) : BitVec 4 := op.extractLsb' 12 4

/-- `x = op[11:8]`. -/
def fieldX (op : Word) : Reg := (op.extractLsb' 8 4).toFin

/-- `y = op[7:4]`. -/
def fieldY (op : Word) : Reg := (op.extractLsb' 4 4).toFin

/-- `n = op[3:0]`, the sprite height or the function code `f`. -/
def fieldN (op : Word) : Fin 16 := (op.extractLsb' 0 4).toFin

/-- `kk = op[7:0]`, the immediate byte or the function code `ff`. -/
def fieldKk (op : Word) : Byte := op.extractLsb' 0 8

/-- `nnn = op[11:0]`. -/
def fieldNnn (op : Word) : Addr := op.extractLsb' 0 12

/-! ### The second level of dispatch (R85) -/

/-- Command 0: the two `FIXED` patterns take priority over `0nnn`. -/
def decode0 (op : Word) : Except Reject Instr :=
  if op = 0x00E0#16 then .ok .cls
  else if op = 0x00EE#16 then .ok .ret
  else .ok (.sys (fieldNnn op))

/-- Command 5: only `5xy0`. -/
def decode5 (op : Word) : Except Reject Instr :=
  if fieldN op = 0 then .ok (.seReg (fieldX op) (fieldY op)) else .error (.illegal op)

/-- Command 8, by the function code `op[3:0]`. -/
def decode8 (op : Word) : Except Reject Instr :=
  match (fieldN op).val with
  | 0x0 => .ok (.ldReg (fieldX op) (fieldY op))
  | 0x1 => .ok (.orReg (fieldX op) (fieldY op))
  | 0x2 => .ok (.andReg (fieldX op) (fieldY op))
  | 0x3 => .ok (.xorReg (fieldX op) (fieldY op))
  | 0x4 => .ok (.addReg (fieldX op) (fieldY op))
  | 0x5 => .ok (.subReg (fieldX op) (fieldY op))
  | 0x6 => .ok (.shr (fieldX op) (fieldY op))
  | 0x7 => .ok (.subnReg (fieldX op) (fieldY op))
  | 0xE => .ok (.shl (fieldX op) (fieldY op))
  | _ => .error (.illegal op)

/-- Command 9: only `9xy0`. -/
def decode9 (op : Word) : Except Reject Instr :=
  if fieldN op = 0 then .ok (.sneReg (fieldX op) (fieldY op)) else .error (.illegal op)

/-- Command 0xE, by the function code `op[7:0]`. -/
def decodeE (op : Word) : Except Reject Instr :=
  if fieldKk op = 0x9E#8 then .ok (.skp (fieldX op))
  else if fieldKk op = 0xA1#8 then .ok (.sknp (fieldX op))
  else .error (.illegal op)

/-- Command 0xF, by the function code `op[7:0]`. -/
def decodeF (op : Word) : Except Reject Instr :=
  if fieldKk op = 0x07#8 then .ok (.ldVxDt (fieldX op))
  else if fieldKk op = 0x0A#8 then .ok (.ldVxK (fieldX op))
  else if fieldKk op = 0x15#8 then .ok (.ldDtVx (fieldX op))
  else if fieldKk op = 0x18#8 then .ok (.ldStVx (fieldX op))
  else if fieldKk op = 0x1E#8 then .ok (.addIVx (fieldX op))
  else if fieldKk op = 0x29#8 then .ok (.ldFVx (fieldX op))
  else if fieldKk op = 0x33#8 then .ok (.ldBVx (fieldX op))
  else if fieldKk op = 0x55#8 then .ok (.ldMemVx (fieldX op))
  else if fieldKk op = 0x65#8 then .ok (.ldVxMem (fieldX op))
  else .error (.illegal op)

/-- `Decode(op)`: the first level dispatches on the command nibble (R85). -/
def decodeWord (op : Word) : Except Reject Instr :=
  match (fieldC op).toNat with
  | 0x0 => decode0 op
  | 0x1 => .ok (.jp (fieldNnn op))
  | 0x2 => .ok (.call (fieldNnn op))
  | 0x3 => .ok (.seByte (fieldX op) (fieldKk op))
  | 0x4 => .ok (.sneByte (fieldX op) (fieldKk op))
  | 0x5 => decode5 op
  | 0x6 => .ok (.ldByte (fieldX op) (fieldKk op))
  | 0x7 => .ok (.addByte (fieldX op) (fieldKk op))
  | 0x8 => decode8 op
  | 0x9 => decode9 op
  | 0xA => .ok (.ldI (fieldNnn op))
  | 0xB => .ok (.jpV0 (fieldNnn op))
  | 0xC => .ok (.rnd (fieldX op) (fieldKk op))
  | 0xD => .ok (.drw (fieldX op) (fieldY op) (fieldN op))
  | 0xE => decodeE op
  | _ => decodeF op

/-- An opcode lies in memory most significant byte first (R57, R80). -/
def wordOfBytes (hi lo : Byte) : Word := hi ++ lo

/-- The instruction at the head of a list of bytes, with the bytes after it (R80: always two bytes). -/
def decode : List Byte → Except Reject (Instr × List Byte)
  | hi :: lo :: rest =>
    match decodeWord (wordOfBytes hi lo) with
    | .ok i => .ok (i, rest)
    | .error r => .error r
  | _ => .error .truncated

/-! ### The encoder, from the patterns of R84 -/

/-- A register index or a count as the nibble it is encoded in (R82). -/
def nibble (k : Fin 16) : BitVec 4 := BitVec.ofFin k

/-- Format `NNN` (R81). -/
def formNnn (c : BitVec 4) (nnn : Addr) : Word := c ++ nnn

/-- Format `XKK` (R81), and format `X` with the function code in the place of `kk`. -/
def formXkk (c : BitVec 4) (x : Reg) (kk : Byte) : Word := c ++ nibble x ++ kk

/-- Formats `XY` and `XYN` (R81): the last nibble is the function code or the sprite height. -/
def formXyn (c : BitVec 4) (x y : Reg) (n : Fin 16) : Word :=
  c ++ nibble x ++ nibble y ++ nibble n

/-- The opcode of an instruction (R84). -/
def encode (i : Instr) : Word :=
  match i with
  | .sys nnn => formNnn 0x0 nnn
  | .cls => 0x00E0
  | .ret => 0x00EE
  | .jp nnn => formNnn 0x1 nnn
  | .call nnn => formNnn 0x2 nnn
  | .seByte x kk => formXkk 0x3 x kk
  | .sneByte x kk => formXkk 0x4 x kk
  | .seReg x y => formXyn 0x5 x y 0x0
  | .ldByte x kk => formXkk 0x6 x kk
  | .addByte x kk => formXkk 0x7 x kk
  | .ldReg x y => formXyn 0x8 x y 0x0
  | .orReg x y => formXyn 0x8 x y 0x1
  | .andReg x y => formXyn 0x8 x y 0x2
  | .xorReg x y => formXyn 0x8 x y 0x3
  | .addReg x y => formXyn 0x8 x y 0x4
  | .subReg x y => formXyn 0x8 x y 0x5
  | .shr x y => formXyn 0x8 x y 0x6
  | .subnReg x y => formXyn 0x8 x y 0x7
  | .shl x y => formXyn 0x8 x y 0xE
  | .sneReg x y => formXyn 0x9 x y 0x0
  | .ldI nnn => formNnn 0xA nnn
  | .jpV0 nnn => formNnn 0xB nnn
  | .rnd x kk => formXkk 0xC x kk
  | .drw x y n => formXyn 0xD x y n
  | .skp x => formXkk 0xE x 0x9E
  | .sknp x => formXkk 0xE x 0xA1
  | .ldVxDt x => formXkk 0xF x 0x07
  | .ldVxK x => formXkk 0xF x 0x0A
  | .ldDtVx x => formXkk 0xF x 0x15
  | .ldStVx x => formXkk 0xF x 0x18
  | .addIVx x => formXkk 0xF x 0x1E
  | .ldFVx x => formXkk 0xF x 0x29
  | .ldBVx x => formXkk 0xF x 0x33
  | .ldMemVx x => formXkk 0xF x 0x55
  | .ldVxMem x => formXkk 0xF x 0x65

/-- The two bytes of an opcode as memory holds them, most significant first (R57). -/
def bytesOfWord (w : Word) : List Byte := [w.extractLsb' 8 8, w.extractLsb' 0 8]

/-- The two bytes of an instruction as memory holds them (R57, R80). -/
def encodeBytes (i : Instr) : List Byte := bytesOfWord (encode i)

/-- The word the first `nbits` table bits stand for: bit 0 is the least significant bit of the opcode, and every bit
above `nbits` is 0. -/
def tableWord (nbits w : Nat) : Word := BitVec.ofNat 16 (w % 2 ^ nbits)

/-- What the decoder reads from the bytes that hold an opcode-table word. -/
def decodeTableWord (nbits w : Nat) : Option Instr :=
  match decode (bytesOfWord (tableWord nbits w)) with
  | .ok (i, _) => some i
  | .error _ => none

end Sys2Proof
end

