-- ==== Sys2Proof/Machine/Flags.lean ====
section
/-!
DEFINITION. The values written to `VF`, the machine's only flag (spec/10_state.md R22).
-/

namespace Sys2Proof.Machine

/-- The index of `VF` (R22). -/
def regF : Reg := 0xF

/-- A condition as the flag byte 1 or 0. -/
def flagByte (c : Bool) : Byte := if c then 1 else 0

/-- 8xy4: 1 if `a + b > 255` (R127). -/
def flagAdd (a b : Byte) : Byte := flagByte (decide (a.toNat + b.toNat > 255))

/-- 8xy5: 1 if a borrow occurs, `a < b` (R128). -/
def flagSub (a b : Byte) : Byte := flagByte (decide (a.toNat < b.toNat))

/-- 8xy7: 1 if `a > b` (R130). -/
def flagSubn (a b : Byte) : Byte := flagByte (decide (a.toNat > b.toNat))

/-- 8xy6: the bit shifted out, `a & 0x01` (R129). -/
def flagShr (a : Byte) : Byte := a &&& 0x01

/-- 8xyE: `a & 0x80`, not normalised (R131). -/
def flagShl (a : Byte) : Byte := a &&& 0x80

/-- Dxyn: 1 if a pixel went from on to off (R171). -/
def flagCollision (hit : Bool) : Byte := flagByte hit

end Sys2Proof.Machine
end

