-- ==== Sys2Proof/Config.lean ====
section
/-!
DEFINITION. What an implementation fixes (the parameters of spec/00_scope.md R6, at the values of this hardware) and
the FREE VALUES: constants without a body, of which nothing can be proved, for what the spec leaves open.
-/

namespace Sys2Proof

/-- `MEM_SIZE`: bytes of `Mem` (R6, R32, R50). -/
def Config.memSize : Nat := 4096

/-- `ROM_BASE`: where `load` places a ROM, and the reset value of `PC` (R6, R23, R71). -/
def Config.romBase : Nat := 0x200

/-- `ROM_MAX`: the longest ROM, in bytes, that `load` accepts (R6, R71; 90_conflicts.md C4). -/
def Config.romMax : Nat := 3584

/-- `FONT_STRIDE`: bytes of one small-font glyph (R6, R142). -/
def Config.fontStride : Nat := 5

/-- `FONT_EXT_BASE`: first byte of the extended font (R6, R33). -/
def Config.fontExtBase : Nat := 0x050

/-- `FONT_END`: last byte of the font region (R6, R33). -/
def Config.fontEnd : Nat := 0x063

/-- `SCREEN_W`: pixels in a row, at the source's default (R6, R35). -/
def Config.screenW : Nat := 64

/-- `SCREEN_H`: rows of pixels, at the source's default (R6, R35). -/
def Config.screenH : Nat := 32

/-- FREE VALUE. `FONT_EXT`: the 20 bytes preloaded at `0x050..0x063`, which the spec leaves OPEN (R6, R33; D20, U9).
The argument is the byte's offset from `0x050`. See notes/assumptions/1.md. -/
opaque Config.fontExt : Nat → Byte

/-- FREE VALUE. How many timer ticks fall in the n-th turn of the environment, when no schedule says so:
any number (R193; U12). See notes/assumptions/3.md. -/
opaque Config.freeTicks : Nat → Nat

/-- FREE VALUE. What `Keyboard.pressedKey()` answers after the n-th turn of the environment, when no schedule says so:
any element of `none, 0, .., 15` (R36, R200; U11, U21). See notes/assumptions/4.md. -/
opaque Config.freeKey : Nat → Option Key

/-- FREE VALUE. The byte `draw8()` gives after the n-th turn of the environment, when no schedule says so:
any value `0..255` (R132; D14, U7). See notes/assumptions/5.md. -/
opaque Config.freeByte : Nat → Byte

/-! ### Open points of the assembler and disassembler (spec/30_encoding.md R88, R93, R94); see notes/assumptions/10.md -/

/-- FREE VALUE. What the assembler makes of a line, by its mnemonic and its operands' text, that has an operand too large
for its field or more operands than its form: any word, or nothing, and then the line is an error (N15). That the same
tokens always give the same result, and that a word is all it can be, is the model's choice (notes/assumptions/10.md). -/
opaque Config.asmOpenLine : (name : List Char) → (ops : List (List Char)) → Option Word

/-- FREE VALUE. The `y` nibble the assembler gives `SHR Vx` and `SHL Vx`, which the CPU ignores (N13), by the opcode with
`y` zero, so by which of the two it is and by `x`. That nothing else decides it is the model's choice
(notes/assumptions/10.md). -/
opaque Config.asmShiftY : (op : Word) → Reg

/-- FREE VALUE. Whether the disassembler prints the word `0nnn` as `FILL` or as `SYS` (N14). That the word
alone decides it is the model's choice (notes/assumptions/10.md). -/
opaque Config.disasmSysAsFill : Addr → Bool

/-- FREE VALUE. The fixed header comment line of the disassembler, of which the spec gives no text (R94). -/
opaque Config.disasmHeader : List Char

/-- FREE VALUE. Which of the two ceilings of 90_conflicts.md C4 the disassembler has: `0x800` words, or 2048 bytes. -/
opaque Config.disasmTakesWords : Bool

end Sys2Proof
end

