-- ==== Sys2Proof/Machine/ResetValues.lean ====
section
/-!
DEFINITION. The values of the registers after reset (spec/10_state.md R38, spec/70_reset_and_hazards.md R250). `PC` and
`SP` are the source's; the zeros are the spec's decision D13 (notes/assumptions/6.md).
-/

namespace Sys2Proof.Machine

/-- `PC` "starts at 0x200": `ROM_BASE` (R23, R38). -/
def resetPc : Word := 0x0200

/-- `STACK_BASE`, the first address a `CALL` writes (R26, R38). -/
def resetSp : Word := 0x0052

/-- Each of `V0..VF` (R38; D13). -/
def resetV : Byte := 0x00

/-- `I` (R38; D13). -/
def resetI : Word := 0x0000

/-- `DT` and `ST` (R38; D13). -/
def resetTimer : Byte := 0x00

end Sys2Proof.Machine
end

