-- ==== Sys2Proof/Machine/State.lean ====
section
/-!
DEFINITION. The state of the machine as plain data: every row of the table of spec/10_state.md R20, and beside it what
the outside world presents to the core (spec/50_interfaces.md R190, R191, R200, R206..R208), the model's own.
-/

namespace Sys2Proof.Machine

/-- The faults of the core (spec/60_exceptions.md R220, R221). Both end the run loop (R226). -/
inductive Fault where
  /-- A `MemRead` or `MemWrite` at `addr`, an unbounded integer outside `0..4095` (R52, R220). Raised by the fetch,
  `RET`, `CALL`, Fx33, Fx55, Fx65 and Dxyn (R223). SAFE: the spec names this fault and its condition. -/
  | addressFault (addr : Int)
  /-- The word `op`, fetched at `pc`, matches no instruction, or is `SYS` (R87, R180, R181, R221). Raised by the CPU
  step and by `SYS`. SAFE: the spec names this fault and its condition. -/
  | decodeFault (op pc : Word)
  deriving DecidableEq, Repr

/-- Reasons for which the model gives an instruction no meaning. -/
inductive Refusal where
  /-- Raised by `exec` alone, for an instruction that has no meaning yet. SAFE: nothing follows from it. No arm of
  `exec` raises it. -/
  | notModelled (mnemonic : String)
  deriving DecidableEq, Repr

/-- The two run states of the engine (R29). -/
inductive RunState where
  | running
  | paused
  deriving DecidableEq, Repr

/-- Whether the CPU's run loop still takes steps (R191): it ends by the host's `stop` (R208) or by a fault (R226),
which is no third value of `run` (R29; 90_conflicts.md C8). -/
inductive RunLoop where
  | active
  | stopped
  | faulted (f : Fault)
  deriving DecidableEq, Repr

/-- The five host operations (R205 to R208; D22). -/
inductive HostCommand where
  | reset
  | load (rom : List Byte)
  | pause
  | resume
  | stop
  deriving DecidableEq, Repr

/-- What the outside does between two CPU steps: so many timer ticks (R193), a new answer of the keyboard (R200), a
new byte on the random input (R132), and the host's commands, in order (R205 to R208). -/
structure Turn where
  ticks : Nat
  key : Option Key
  rnd : Byte
  host : List HostCommand
  deriving DecidableEq, Repr

/-- `Mem`, sparse: the cells that differ from what reset puts there, addresses rising (R32). -/
abbrev Memory := List Host.Cell

/-- The Screen grid, sparse: the pixels that are on, pixel `(px, py)` as the number `py * SCREEN_W + px`, rising (R35). -/
abbrev Screen := List Nat

/-- The whole state (R20). -/
structure State where
  /-- The general registers `V0..VF` (R21). -/
  v : Vector Byte 16
  /-- The index register (R25). -/
  i : Word
  /-- The program counter: the address of the instruction itself while it executes (R23). -/
  pc : Word
  /-- The stack pointer: the address of the next free entry (R26). -/
  sp : Word
  /-- The delay timer (R27). -/
  dt : Byte
  /-- The sound timer (R28). -/
  st : Byte
  /-- Memory (R32). -/
  mem : Memory
  /-- Memory's loaded-ROM flag (R30). -/
  loaded : Bool
  /-- The engine's run state (R29). -/
  run : RunState
  /-- The Screen, environment state the core reads and writes (R35). -/
  screen : Screen
  /-- The pressed key, environment state: what `pressedKey()` answers if this step samples it (R36, R200). -/
  pressedKey : Option Key
  /-- The model's own: whether the run loop still takes steps (R191, R208, R226). -/
  loop : RunLoop
  /-- The model's own: the byte `draw8()` gives if this step draws (R132). -/
  rnd : Byte
  /-- The model's own: what the outside does in the turns to come, oldest first. Where it is empty, the free values
  of Config speak. -/
  inputs : List Turn
  /-- The model's own: the number of the next turn that takes its values from Config. -/
  turns : Nat
  deriving DecidableEq, Repr

/-- The machine right after reset (R38, R250), with the pressed key and the random byte free. -/
def State.reset : State :=
  { v := Vector.replicate 16 resetV
    i := resetI
    pc := resetPc
    sp := resetSp
    dt := resetTimer
    st := resetTimer
    mem := []
    loaded := false
    run := .paused
    screen := []
    pressedKey := Config.freeKey 0
    loop := .active
    rnd := Config.freeByte 0
    inputs := []
    turns := 1 }

end Sys2Proof.Machine
end

