-- ==== Sys2Proof/Machine/Memory.lean ====
section
/-!
DEFINITION. `Mem` as a sparse list of cells in one canonical form: what an unlisted address reads as (the reset contents,
spec/10_state.md R33, R34, R38), reading and writing one cell, and the form itself.
-/

namespace Sys2Proof.Machine

/-- `FONT_SMALL`: the 16 glyphs of 5 bytes at `0x000..0x04F` (R34; D20, from general knowledge: notes/assumptions/2.md). -/
def fontSmall : List Byte :=
  [0xF0, 0x90, 0x90, 0x90, 0xF0, 0x20, 0x60, 0x20, 0x20, 0x70,
   0xF0, 0x10, 0xF0, 0x80, 0xF0, 0xF0, 0x10, 0xF0, 0x10, 0xF0,
   0x90, 0x90, 0xF0, 0x10, 0x10, 0xF0, 0x80, 0xF0, 0x10, 0xF0,
   0xF0, 0x80, 0xF0, 0x90, 0xF0, 0xF0, 0x10, 0x20, 0x40, 0x40] ++
  [0xF0, 0x90, 0xF0, 0x90, 0xF0, 0xF0, 0x90, 0xF0, 0x10, 0xF0,
   0xF0, 0x90, 0xF0, 0x90, 0x90, 0xE0, 0x90, 0xE0, 0x90, 0xE0,
   0xF0, 0x80, 0x80, 0x80, 0xF0, 0xE0, 0x90, 0x90, 0x90, 0xE0,
   0xF0, 0x80, 0xF0, 0x80, 0xF0, 0xF0, 0x80, 0xF0, 0x80, 0x80]

/-- The byte reset puts at an address, where the spec gives one: the small font, and zero above the font region (R38).
The extended font's bytes are OPEN (R33), so its addresses have none. -/
def resetByte (a : Nat) : Option Byte :=
  if a < Config.fontExtBase then fontSmall[a]?
  else if a ≤ Config.fontEnd then none
  else some 0

/-- What an unlisted address reads as: the reset contents (R38), a free value in the extended font (D20). -/
def unlisted (a : Nat) : Byte :=
  match resetByte a with
  | some b => b
  | none => Config.fontExt (a - Config.fontExtBase)

/-- The byte listed for an address, if one is. -/
def Memory.lookup : Memory → Nat → Option Byte
  | [], _ => none
  | c :: rest, a => if c.1 = a then some c.2 else Memory.lookup rest a

/-- The byte a cell holds. A read changes nothing (R53). -/
def Memory.read (m : Memory) (a : Nat) : Byte :=
  match m.lookup a with
  | some b => b
  | none => unlisted a

/-- List a cell, in address order, in place of the one listed there before. -/
def Memory.insert (a : Nat) (b : Byte) : Memory → Memory
  | [] => [(a, b)]
  | c :: rest =>
    if a < c.1 then (a, b) :: c :: rest
    else if a = c.1 then (a, b) :: rest
    else c :: Memory.insert a b rest

/-- Set one cell and no other (R55). A cell that gets the byte reset put there is not listed. -/
def Memory.write (m : Memory) (a : Nat) (b : Byte) : Memory :=
  if resetByte a = some b then m.filter (fun c => c.1 ≠ a) else Memory.insert a b m

/-- Set the cells from `a` upward, in rising order. -/
def Memory.writeList (m : Memory) (a : Nat) : List Byte → Memory
  | [] => m
  | b :: rest => Memory.writeList (m.write a b) (a + 1) rest

/-- The canonical form: addresses strictly rising, all of them below `MEM_SIZE`, and no cell that holds the byte reset
put there. -/
abbrev Memory.wf (m : Memory) : Prop :=
  m.Pairwise (fun c d => c.1 < d.1) ∧ ∀ c ∈ m, c.1 < Config.memSize ∧ resetByte c.1 ≠ some c.2

end Sys2Proof.Machine
end

