-- ==== Sys2Proof/Machine/Screen.lean ====
section
/-!
DEFINITION. The Screen capability as a plain bit grid (spec/50_interfaces.md R196 to R198) and the XOR-blit of a sprite
(spec/46_display.md R171).
-/

namespace Sys2Proof.Machine

/-- The number of pixel `(px, py)`: columns from the left edge, rows from the top (R198). -/
def pixelIndex (px py : Nat) : Nat := py * Config.screenW + px

/-- `Screen.getPixel(px, py)`: whether the pixel is on (R198). -/
def Screen.getPixel (scr : Screen) (px py : Nat) : Bool := decide (pixelIndex px py ∈ scr)

/-- List a pixel as on, in rising order. -/
def Screen.insert (p : Nat) : Screen → Screen
  | [] => [p]
  | q :: rest => if p < q then p :: q :: rest else if p = q then q :: rest else q :: Screen.insert p rest

/-- `Screen.setPixel(px, py, on)`: set that pixel and change no other (R198). -/
def Screen.setPixel (scr : Screen) (px py : Nat) (on : Bool) : Screen :=
  if on then Screen.insert (pixelIndex px py) scr else scr.filter (fun q => q ≠ pixelIndex px py)

/-- `Screen.clear()`: every pixel off (R197). -/
def Screen.clear : Screen := []

/-- The canonical form: pixel numbers strictly rising, all of them on the grid. -/
abbrev Screen.wf (scr : Screen) : Prop :=
  scr.Pairwise (· < ·) ∧ ∀ p ∈ scr, p < Config.screenW * Config.screenH

/-- One sprite bit at column `col` of row `row`: a 1 flips its pixel, both coordinates reduced, and notes a collision
when the pixel was on; a 0 does nothing. Bit 7 of the byte is the leftmost pixel (R171; D15). -/
def drawPixel (x0 y0 row col : Nat) (b : Byte) (acc : Screen × Bool) : Screen × Bool :=
  if b.getLsbD (7 - col) then
    let px := (x0 + col) % Config.screenW
    let py := (y0 + row) % Config.screenH
    let old := acc.1.getPixel px py
    (acc.1.setPixel px py (!old), acc.2 || old)
  else acc

/-- The eight columns of one sprite row, left to right (R171). -/
def drawRow (x0 y0 row : Nat) (b : Byte) (acc : Screen × Bool) : Screen × Bool :=
  [0, 1, 2, 3, 4, 5, 6, 7].foldl (fun a col => drawPixel x0 y0 row col b a) acc

/-- The rows of a sprite from row `row` on, in order; the collision is accumulated, not reset per row (R171). -/
def drawSprite (x0 y0 : Nat) : List Byte → Nat → Screen × Bool → Screen × Bool
  | [], _, acc => acc
  | b :: rest, row, acc => drawSprite x0 y0 rest (row + 1) (drawRow x0 y0 row b acc)

end Sys2Proof.Machine
end

