-- ==== Sys2Proof/Machine/Ops.lean ====
section
/-!
DEFINITION. The named operations over the state: registers, the four memory access primitives (spec/20_memory.md R52 to
R56), the fetch (R58), and raising a fault (spec/60_exceptions.md R220 to R226).
-/

namespace Sys2Proof.Machine

/-- What a step or an instruction answers. -/
abbrev Result := Host.Outcome State Fault Refusal

/-! ### Registers (spec/10_state.md) -/

/-- `V[k]` (R9, R21). -/
def State.reg (s : State) (k : Reg) : Byte := s.v[k]

/-- `V[k] <- b` (R9, R21). -/
def State.setReg (s : State) (k : Reg) (b : Byte) : State := { s with v := s.v.set k b }

/-- `I <- w` (R25). -/
def State.setI (s : State) (w : Word) : State := { s with i := w }

/-- `PC <- w` (R23). -/
def State.setPc (s : State) (w : Word) : State := { s with pc := w }

/-- `SP <- w` (R26). -/
def State.setSp (s : State) (w : Word) : State := { s with sp := w }

/-- `DT <- b` (R27). -/
def State.setDt (s : State) (b : Byte) : State := { s with dt := b }

/-- `ST <- b` (R28). -/
def State.setSt (s : State) (b : Byte) : State := { s with st := b }

/-- Replace the contents of `Mem` (R32). -/
def State.setMem (s : State) (m : Memory) : State := { s with mem := m }

/-- Replace the contents of the Screen (R35). -/
def State.setScreen (s : State) (scr : Screen) : State := { s with screen := scr }

/-- `PC <- PC + 2`, the advance of a sequential instruction (R24). -/
def State.advance (s : State) : State := s.setPc (s.pc + 2)

/-! ### Faults (spec/60_exceptions.md) -/

/-- Raise a fault: the instruction is abandoned and commits nothing, so the state stays as it was before the step; no
register saves anything and there is no handler (R224, R226). No instruction returns from it (R227). -/
def raise (f : Fault) : Result := .fault f

/-- An instruction's outcome from its computation: the next state, or the first fault it met (R225). -/
def commit (r : Except Fault State) : Result :=
  match r with
  | .ok s => .next s
  | .error f => raise f

/-! ### Memory access (spec/20_memory.md) -/

/-- `InRange(addr)`, on the unbounded integer (R8, R52). -/
def inRange : Int → Bool
  | .ofNat a => decide (a < Config.memSize)
  | .negSucc _ => false

/-- `MemRead(addr, 1)` (R53). -/
def State.memRead1 (s : State) (a : Int) : Except Fault Byte :=
  if inRange a then .ok (s.mem.read a.toNat) else .error (.addressFault a)

/-- `MemRead(addr, 2)`: two byte reads, the byte at the lower address the more significant (R54). -/
def State.memRead2 (s : State) (a : Int) : Except Fault Word :=
  match s.memRead1 a, s.memRead1 (a + 1) with
  | .error f, _ => .error f
  | .ok _, .error f => .error f
  | .ok hi, .ok lo => .ok (hi ++ lo)

/-- `MemWrite(addr, 1, b)` (R55). -/
def State.memWrite1 (s : State) (a : Int) (b : Byte) : Except Fault State :=
  if inRange a then .ok (s.setMem (s.mem.write a.toNat b)) else .error (.addressFault a)

/-- `MemWrite(addr, 2, w)`: big-endian, and nothing is written when either address is out of range (R56). -/
def State.memWrite2 (s : State) (a : Int) (w : Word) : Except Fault State :=
  match s.memWrite1 a (w.extractLsb' 8 8) with
  | .error f => .error f
  | .ok t => t.memWrite1 (a + 1) (w.extractLsb' 0 8)

/-- The fetch: `op <- MemRead(PC, 2)`; `PC` does not change (R58). -/
def State.fetch (s : State) : Except Fault Word := s.memRead2 (s.pc.toNat : Int)

/-- Put an opcode where the next fetch reads it, most significant byte first (R57), if `PC` points at two cells. -/
def State.placeOpcode (s : State) (op : Word) : State :=
  if s.pc.toNat + 1 < Config.memSize then
    s.setMem (s.mem.writeList s.pc.toNat [op.extractLsb' 8 8, op.extractLsb' 0 8])
  else s

/-- The CPU step is enabled: running, no fault has ended the run loop, and the host has not stopped it (R191). -/
def State.cpuEnabled (s : State) : Bool := decide (s.run = .running ∧ s.loop = .active)

end Sys2Proof.Machine
end

