-- ==== Sys2Proof/Machine/Operands.lean ====
section
/-!
DEFINITION. The operand forms the instructions share: immediates zero-extended (spec/30_encoding.md R83), the block
`Mem[I..]` reached through `I` (spec/43_memory_index.md), a skip (R24), and the two sequential writes of the
instructions that have a flag and a result (spec/42_alu.md R120).
-/

namespace Sys2Proof.Machine

/-- `nnn` as a `PC` or `I` value: zero-extended to 16 bits (R83). -/
def addrWord (nnn : Addr) : Word := nnn.setWidth 16

/-- `V[x]` as a 16-bit value, zero-extended (R83, R141). -/
def State.regWord (s : State) (x : Reg) : Word := (s.reg x).setWidth 16

/-- The effective address `I` as an unbounded integer (R8). -/
def State.indexAddr (s : State) : Int := (s.i.toNat : Int)

/-- Read `n` bytes at rising addresses from `a`; the first address out of range faults (R62). -/
def State.readBlock (s : State) (a : Int) : Nat → Except Fault (List Byte)
  | 0 => .ok []
  | n + 1 =>
    match s.memRead1 a, s.readBlock (a + 1) n with
    | .error f, _ => .error f
    | .ok _, .error f => .error f
    | .ok b, .ok rest => .ok (b :: rest)

/-- Write bytes at rising addresses from `a`; the first address out of range faults and nothing is written (R62, R224). -/
def State.writeBlock (s : State) (a : Int) : List Byte → Except Fault State
  | [] => .ok s
  | b :: rest =>
    match s.memWrite1 a b with
    | .error f => .error f
    | .ok t => t.writeBlock (a + 1) rest

/-- `V[0..x]`, in order (R144). -/
def State.regsUpTo (s : State) (x : Reg) : List Byte := s.v.toList.take (x.val + 1)

/-- Put bytes into the registers from `V[k]` on (R145). -/
def State.setRegsFrom (s : State) (k : Nat) : List Byte → State
  | [] => s
  | b :: rest => if h : k < 16 then (s.setReg ⟨k, h⟩ b).setRegsFrom (k + 1) rest else s

/-- A skip: `PC + 4` when the condition holds, else `PC + 2` (R24, R114). -/
def State.skipIf (s : State) (c : Bool) : State := s.setPc (s.pc + if c then 4 else 2)

/-- Write a result to `V[x]` and go on to the next instruction. -/
def State.writeResult (s : State) (x : Reg) (b : Byte) : State := (s.setReg x b).advance

/-- Two sequential register writes, the flag first: statement 1 computes the flag from the registers as they are and
writes `VF`; statement 2 reads `V[x]` and `V[y]` again and writes `V[x]` (R120; D7). -/
def State.flagThenResult (s : State) (x y : Reg) (flag result : Byte → Byte → Byte) : State :=
  let s1 := s.setReg regF (flag (s.reg x) (s.reg y))
  s1.writeResult x (result (s1.reg x) (s1.reg y))

/-- The three decimal digits of a byte, hundreds first (R143). -/
def bcdDigits (b : Byte) : List Byte :=
  [BitVec.ofNat 8 (b.toNat / 100), BitVec.ofNat 8 (b.toNat / 10 % 10), BitVec.ofNat 8 (b.toNat % 10)]

end Sys2Proof.Machine
end

