-- ==== Sys2Proof/Machine/Alu.lean ====
section
/-!
DEFINITION. Loads, arithmetic, logic, shifts and random (spec/42_alu.md). None of them can fault; all advance `PC` by 2.
-/

namespace Sys2Proof.Machine

/-- `LD Vx, byte` (R121). -/
def execLdByte (x : Reg) (kk : Byte) (s : State) : Result := .next (s.writeResult x kk)

/-- `ADD Vx, byte` (R122): modulo 256, no flag. -/
def execAddByte (x : Reg) (kk : Byte) (s : State) : Result := .next (s.writeResult x (s.reg x + kk))

/-- `LD Vx, Vy` (R123). -/
def execLdReg (x y : Reg) (s : State) : Result := .next (s.writeResult x (s.reg y))

/-- `OR Vx, Vy` (R124): `VF` is not a flag here. -/
def execOrReg (x y : Reg) (s : State) : Result := .next (s.writeResult x (s.reg x ||| s.reg y))

/-- `AND Vx, Vy` (R125). -/
def execAndReg (x y : Reg) (s : State) : Result := .next (s.writeResult x (s.reg x &&& s.reg y))

/-- `XOR Vx, Vy` (R126). -/
def execXorReg (x y : Reg) (s : State) : Result := .next (s.writeResult x (s.reg x ^^^ s.reg y))

/-- `ADD Vx, Vy` (R127): `VF` is the carry. -/
def execAddReg (x y : Reg) (s : State) : Result :=
  .next (s.flagThenResult x y flagAdd (fun a b => a + b))

/-- `SUB Vx, Vy` (R128): `VF` is 1 on a borrow. -/
def execSubReg (x y : Reg) (s : State) : Result :=
  .next (s.flagThenResult x y flagSub (fun a b => a - b))

/-- `SHR Vx` (R129): `y` is ignored. -/
def execShr (x _y : Reg) (s : State) : Result :=
  .next (s.flagThenResult x x (fun a _ => flagShr a) (fun a _ => a >>> 1))

/-- `SUBN Vx, Vy` (R130): the same difference as `SUB`, with `VF` 1 if `V[x] > V[y]`. -/
def execSubnReg (x y : Reg) (s : State) : Result :=
  .next (s.flagThenResult x y flagSubn (fun a b => a - b))

/-- `SHL Vx` (R131): `y` is ignored. -/
def execShl (x _y : Reg) (s : State) : Result :=
  .next (s.flagThenResult x x (fun a _ => flagShl a) (fun a _ => a <<< 1))

/-- `RND Vx, byte` (R132): the byte drawn is whatever the environment presents at this step. -/
def execRnd (x : Reg) (kk : Byte) (s : State) : Result := .next (s.writeResult x (s.rnd &&& kk))

end Sys2Proof.Machine
end

