-- ==== Sys2Proof/Machine/ControlFlow.lean ====
section
/-!
DEFINITION. Control flow (spec/40_control_flow.md): `RET`, `JP addr`, `CALL addr`, `JP V0, addr`.
-/

namespace Sys2Proof.Machine

/-- `RET` (R100): pop the 16-bit entry below `SP`, unmasked, into `PC`. -/
def execRet (s : State) : Result :=
  let a : Int := (s.sp.toNat : Int) - 2
  commit <|
    match s.memRead2 a with
    | .error f => .error f
    | .ok t => .ok ((s.setSp (BitVec.ofInt 16 a)).setPc t)

/-- `JP addr` (R101). -/
def execJp (nnn : Addr) (s : State) : Result := .next (s.setPc (addrWord nnn))

/-- `CALL addr` (R102): push `PC + 2` at `SP`, then add 2 to `SP`, then jump. -/
def execCall (nnn : Addr) (s : State) : Result :=
  commit <|
    match s.memWrite2 (s.sp.toNat : Int) (s.pc + 2) with
    | .error f => .error f
    | .ok t => .ok ((t.setSp (s.sp + 2)).setPc (addrWord nnn))

/-- `JP V0, addr` (R103): the only jump that masks to 12 bits. -/
def execJpV0 (nnn : Addr) (s : State) : Result :=
  .next (s.setPc ((addrWord nnn + s.regWord 0) &&& 0x0FFF))

end Sys2Proof.Machine
end

