-- ==== Sys2Proof/Machine/Display.lean ====
section
/-!
DEFINITION. Display instructions (spec/46_display.md): `CLS`, `DRW Vx, Vy, nibble`.
-/

namespace Sys2Proof.Machine

/-- `CLS` (R170): `VF` is not written. -/
def execCls (s : State) : Result := .next (s.setScreen Screen.clear).advance

/-- `DRW Vx, Vy, nibble` (R171): the coordinates are read first, then all the sprite bytes, then the pixels flip, and
`VF` is written last. -/
def execDrw (x y : Reg) (n : Fin 16) (s : State) : Result :=
  commit <|
    match s.readBlock s.indexAddr n.val with
    | .error f => .error f
    | .ok bs =>
      let drawn := drawSprite (s.reg x).toNat (s.reg y).toNat bs 0 (s.screen, false)
      .ok ((s.setScreen drawn.1).writeResult regF (flagCollision drawn.2))

end Sys2Proof.Machine
end

