-- ==== Sys2Proof/Machine/Index.lean ====
section
/-!
DEFINITION. Memory and index (spec/43_memory_index.md): `LD I`, `ADD I`, `LD F`, `LD B`, `LD [I], Vx`, `LD Vx, [I]`.
-/

namespace Sys2Proof.Machine

/-- `LD I, addr` (R140). -/
def execLdI (nnn : Addr) (s : State) : Result := .next (s.setI (addrWord nnn)).advance

/-- `ADD I, Vx` (R141): modulo 65536, not masked to 12 bits, no flag. -/
def execAddIVx (x : Reg) (s : State) : Result := .next (s.setI (s.i + s.regWord x)).advance

/-- `LD F, Vx` (R142): the whole of `V[x]`, times the stride of the small font. -/
def execLdFVx (x : Reg) (s : State) : Result :=
  .next (s.setI (BitVec.ofNat 16 ((s.reg x).toNat * Config.fontStride))).advance

/-- `LD B, Vx` (R143). -/
def execLdBVx (x : Reg) (s : State) : Result :=
  commit <|
    match s.writeBlock s.indexAddr (bcdDigits (s.reg x)) with
    | .error f => .error f
    | .ok t => .ok t.advance

/-- `LD [I], Vx` (R144): `I` is unchanged. -/
def execLdMemVx (x : Reg) (s : State) : Result :=
  commit <|
    match s.writeBlock s.indexAddr (s.regsUpTo x) with
    | .error f => .error f
    | .ok t => .ok t.advance

/-- `LD Vx, [I]` (R145): `I` is unchanged. -/
def execLdVxMem (x : Reg) (s : State) : Result :=
  commit <|
    match s.readBlock s.indexAddr (x.val + 1) with
    | .error f => .error f
    | .ok bs => .ok (s.setRegsFrom 0 bs).advance

end Sys2Proof.Machine
end

