-- ==== Sys2Proof/Machine/Keys.lean ====
section
/-!
DEFINITION. Key instructions (spec/45_keys.md). Each samples the keyboard once, at its step (R200; D27).
-/

namespace Sys2Proof.Machine

/-- Whether the key the keyboard reports is the one numbered by the whole byte `b` (R160; D16). -/
def State.keyIs (s : State) (b : Byte) : Bool :=
  match s.pressedKey with
  | none => false
  | some k => decide (k.val = b.toNat)

/-- `SKP Vx` (R160). -/
def execSkp (x : Reg) (s : State) : Result := .next (s.skipIf (s.keyIs (s.reg x)))

/-- `SKNP Vx` (R161). -/
def execSknp (x : Reg) (s : State) : Result := .next (s.skipIf (!s.keyIs (s.reg x)))

/-- `LD Vx, K` (R162): with no key pressed the step changes nothing, and the same instruction is fetched again. -/
def execLdVxK (x : Reg) (s : State) : Result :=
  .next <|
    match s.pressedKey with
    | none => s
    | some k => s.writeResult x (BitVec.ofNat 8 k.val)

end Sys2Proof.Machine
end

