-- ==== Sys2Proof/Machine/Sys.lean ====
section
/-!
DEFINITION. `SYS addr` (spec/47_sys_fill.md R180): a raw word with no machine meaning.
-/

namespace Sys2Proof.Machine

/-- `SYS addr` (R180): always a `DecodeFault` carrying the word itself, `0nnn`, and its address. -/
def execSys (nnn : Addr) (s : State) : Result := raise (.decodeFault (addrWord nnn) s.pc)

end Sys2Proof.Machine
end

