-- ==== Sys2Proof/Machine/Timers.lean ====
section
/-!
DEFINITION. Timer instructions (spec/44_timers.md). The countdown is the timer agent's (Machine/Environment.lean).
-/

namespace Sys2Proof.Machine

/-- `LD Vx, DT` (R150). -/
def execLdVxDt (x : Reg) (s : State) : Result := .next (s.writeResult x s.dt)

/-- `LD DT, Vx` (R151). -/
def execLdDtVx (x : Reg) (s : State) : Result := .next (s.setDt (s.reg x)).advance

/-- `LD ST, Vx` (R152). -/
def execLdStVx (x : Reg) (s : State) : Result := .next (s.setSt (s.reg x)).advance

end Sys2Proof.Machine
end

