-- ==== Sys2Proof/Machine/Environment.lean ====
section
/-!
DEFINITION. The agents beside the CPU (spec/50_interfaces.md R190): the timer tick (R192), the host's five operations
(R205 to R208), the sound output (R203), and one turn of the environment between two CPU steps (R193).
-/

namespace Sys2Proof.Machine

/-! ### The timer agent -/

/-- One tick of one timer: toward zero, never below (R27, R192). -/
def tickDown (t : Byte) : Byte := if t = 0 then 0 else t - 1

/-- One timer tick: both timers, nothing else (R192). -/
def State.timerTick (s : State) : State := { s with dt := tickDown s.dt, st := tickDown s.st }

/-- A timer after `n` ticks; a timer at zero stays there whatever `n` is (R192). -/
def countDown (t : Byte) (n : Nat) : Byte := if t = 0 then 0 else BitVec.ofNat 8 (t.toNat - n)

/-- `n` timer ticks (R192, R193). -/
def State.timerTicks (s : State) (n : Nat) : State := { s with dt := countDown s.dt n, st := countDown s.st n }

/-! ### The host -/

/-- `reset` (R205, R250): everything the spec gives the block returns to its reset value, and an ended run loop is
forgotten. While the CPU is enabled the request is ignored (R210; U17). The outside's own state is not the block's. -/
def State.hostReset (s : State) : State :=
  if s.cpuEnabled then s
  else { State.reset with pressedKey := s.pressedKey, rnd := s.rnd, inputs := s.inputs, turns := s.turns }

/-- `load(bytes) -> bool` (R71, R206): the bytes go to `0x200` upward and `loaded` is set; a ROM too long is refused
and nothing is written (D26); while the engine is running the request is ignored (U17). -/
def State.hostLoad (s : State) (rom : List Byte) : State × Bool :=
  if s.run = .paused ∧ rom.length ≤ Config.romMax then
    ({ s with mem := s.mem.writeList Config.romBase rom, loaded := true }, true)
  else (s, false)

/-- `pause` (R207). -/
def State.hostPause (s : State) : State := { s with run := .paused }

/-- `resume` (R207): no ROM is required. -/
def State.hostResume (s : State) : State := { s with run := .running }

/-- `stop` (R208): the run loop takes no further step; a run that a fault ended stays so. -/
def State.hostStop (s : State) : State :=
  match s.loop with
  | .active => { s with loop := .stopped }
  | .stopped => s
  | .faulted _ => s

/-- `isLoaded() -> bool` (R30, R209). -/
def State.isLoaded (s : State) : Bool := s.loaded

/-- One host operation. -/
def State.hostCommand (s : State) (c : HostCommand) : State :=
  match c with
  | .reset => s.hostReset
  | .load rom => (s.hostLoad rom).1
  | .pause => s.hostPause
  | .resume => s.hostResume
  | .stop => s.hostStop

/-- The host's operations of one turn, in order. -/
def State.hostCommands (s : State) : List HostCommand → State
  | [] => s
  | c :: rest => (s.hostCommand c).hostCommands rest

/-- What the run loop becomes when a step raises a fault: it has ended, and the fault is there for the host to read;
nothing else changes (R224, R226). -/
def State.endByFault (s : State) (f : Fault) : State := { s with loop := .faulted f }

/-! ### One turn of the environment -/

/-- Ticks, a new answer of the keyboard and a new random byte. -/
def State.present (s : State) (ticks : Nat) (key : Option Key) (rnd : Byte) : State :=
  { s.timerTicks ticks with pressedKey := key, rnd := rnd }

/-- What happens between two CPU steps: any number of ticks (R193), a keyboard and a random input that may have
changed (R200, R132), and the host's operations (R205 to R208). Taken from the schedule while it lasts, then from the
free values of Config, with no host operation (notes/assumptions/7.md). -/
def State.turn (s : State) : State :=
  match s.inputs with
  | t :: rest => ({ s with inputs := rest }.present t.ticks t.key t.rnd).hostCommands t.host
  | [] =>
    { s with turns := s.turns + 1 }.present (Config.freeTicks s.turns) (Config.freeKey s.turns) (Config.freeByte s.turns)

/-! ### The sound output -/

/-- The sound is on exactly while `ST != 0` (R28, R203). -/
def State.soundOn (s : State) : Bool := s.st != 0

/-- The two operations of the Audio capability (R202). -/
inductive AudioCall where
  | noteOn
  | noteOff
  deriving DecidableEq, Repr

/-- The call issued when the state goes from `s` to `t`: an edge of the level (R203; D19). -/
def audioCall (s t : State) : Option AudioCall :=
  match s.soundOn, t.soundOn with
  | false, true => some .noteOn
  | true, false => some .noteOff
  | _, _ => none

end Sys2Proof.Machine
end

