-- ==== Sys2Proof/Machine/Cpu.lean ====
section
/-!
DEFINITION. One CPU step: fetch, decode, execute (spec/50_interfaces.md R191), in this order of priority among faults
(spec/60_exceptions.md R225).
-/

namespace Sys2Proof.Machine

/-- Decode and execute the fetched word; a word that matches no instruction raises `DecodeFault(op, PC)` (R181, R191). -/
def executeWord (op : Word) (s : State) : Result :=
  match decodeWord op with
  | .error _ => raise (.decodeFault op s.pc)
  | .ok i => exec i s

/-- The CPU step (R191). -/
def cpuStep (s : State) : Result :=
  match s.fetch with
  | .error f => raise f
  | .ok op => executeWord op s

/-- After a CPU step that completes, the environment has its turn (R193); a fault ends the run loop (R226). -/
def thenTurn (r : Result) : Result :=
  match r with
  | .next t => .next t.turn
  | .fault f => .fault f
  | .refused q => .refused q

/-- A step of the machine: a CPU step and a turn of the environment, or the turn alone when the CPU is not enabled
(R29, R191, R211). -/
def stepState (s : State) : Result := if s.cpuEnabled then thenTurn (cpuStep s) else .next s.turn

/-- Make the next step fetch and run an opcode: the opcode in memory, and the engine running. -/
def State.readyToRun (s : State) (op : Word) : State := { s.placeOpcode op with run := .running, loop := .active }

/-- The whole system, which goes on after a fault: the run loop has ended, and the environment still acts
(R192, R226; D18). -/
def systemStep (s : State) : State :=
  match stepState s with
  | .next t => t
  | .fault f => (s.endByFault f).turn
  | .refused _ => s

end Sys2Proof.Machine
end

