-- ==== Sys2Proof/Machine/Step.lean ====
section
/-!
DEFINITION. The step of the machine, and how the host puts an instruction where the step fetches it.
-/

namespace Sys2Proof.Machine

/-- One step of the machine (spec/50_interfaces.md R191, R192). -/
def step (s : State) : Host.Outcome State Fault Refusal := stepState s

/-- `s` with an opcode-table word placed where the next step fetches, and the engine running, so that the next step
runs it. It stands for the host's `load` and `resume` (R206, R207; notes/assumptions/8.md). -/
def State.withFetchWord (s : State) (nbits w : Nat) : State := s.readyToRun (tableWord nbits w)

end Sys2Proof.Machine
end

