-- ==== Sys2Proof/Safety.lean ====
section
/-!
DEFINITION. What counts as a safe state and a safe run, in the terms claims use.
-/

namespace Sys2Proof.Safety

open Sys2Proof.Machine

/-- The invariant of the machine: memory and Screen are in their canonical forms, and `SP` is even and at most
`0x1000` (spec/20_memory.md R61, spec/40_control_flow.md R102). -/
abbrev Inv (s : State) : Prop :=
  s.mem.wf ∧ s.screen.wf ∧ s.sp.toNat % 2 = 0 ∧ s.sp.toNat ≤ 0x1000

/-- The next step raises no fault. -/
def StepSafe (s : State) : Prop := ∀ f, step s ≠ .fault f

/-- The end-of-run convention of R259: `PC = a` and the word at `a` is a jump to `a`. -/
def Finished (s : State) : Prop :=
  s.pc.toNat < Config.memSize ∧ s.fetch = .ok (0x1000 ||| s.pc)

/-- The stack has not grown out of the 215 entries below the ROM (R256). -/
def StackBelowRom (s : State) : Prop := s.sp.toNat ≤ Config.romBase

/-- No cell of the font region has been overwritten since reset (R260). -/
def FontsIntact (s : State) : Prop := ∀ a, a ≤ Config.fontEnd → s.mem.lookup a = none

/-- Every fault is one the spec names: a `DecodeFault`, or an `AddressFault` at an address outside `Mem` (R220, R221). -/
def FaultNamed (f : Fault) : Prop :=
  match f with
  | .addressFault a => a < 0 ∨ (Config.memSize : Int) ≤ a
  | .decodeFault _ _ => True

end Sys2Proof.Safety
end

