-- ==== Sys2Proof/Certificates/Slice0/Obligations.lean ====
section
/-!
DEFINITION. The statements for the provers, from the numbered rules of spec/. A statement about an instruction says that
`exec` ANSWERS a next state and what that state holds; the equation `t = { s with .. }` in it is its frame: every field
not named there is as before, memory byte for byte.
-/

namespace Sys2Proof.Claim

open Sys2Proof.Machine

/-- The ILLEGAL words, by command nibble, as the table of R87 lists them (its first row is `SYS`, not ILLEGAL). -/
def IllegalPattern (op : Word) : Prop :=
  let c := op.toNat / 4096
  let lo := op.toNat % 16
  let ff := op.toNat % 256
  (c = 5 ∧ lo ≠ 0) ∨ (c = 8 ∧ lo ∈ [8, 9, 0xA, 0xB, 0xC, 0xD, 0xF]) ∨ (c = 9 ∧ lo ≠ 0) ∨
  (c = 0xE ∧ ff ∉ [0x9E, 0xA1]) ∨
  (c = 0xF ∧ ff ∉ [0x07, 0x0A, 0x15, 0x18, 0x1E, 0x29, 0x33, 0x55, 0x65])

/-- The fault an instruction raises, as the table of R223 gives it. -/
def faultOf (i : Instr) (s : State) : Option Fault :=
  let top := some (Fault.addressFault (max (s.i.toNat : Int) 0x1000))
  match i with
  | .sys nnn => some (.decodeFault (formNnn 0x0 nnn) s.pc)
  | .ret =>
    if s.sp.toNat < 2 ∨ s.sp.toNat > 0x1001 then some (.addressFault ((s.sp.toNat : Int) - 2))
    else if s.sp.toNat = 0x1001 then some (.addressFault 0x1000) else none
  | .call _ =>
    if s.sp.toNat > 0xFFF then some (.addressFault (s.sp.toNat : Int))
    else if s.sp.toNat = 0xFFF then some (.addressFault 0x1000) else none
  | .ldBVx _ => if s.i.toNat + 2 > 0xFFF then top else none
  | .ldMemVx x => if s.i.toNat + x.val > 0xFFF then top else none
  | .ldVxMem x => if s.i.toNat + x.val > 0xFFF then top else none
  | .drw _ _ n => if n.val > 0 ∧ s.i.toNat + n.val > 0x1000 then top else none
  | .cls | .jp _ | .seByte _ _ | .sneByte _ _ | .seReg _ _ | .ldByte _ _ | .addByte _ _ | .ldReg _ _ | .orReg _ _
  | .andReg _ _ | .xorReg _ _ | .addReg _ _ | .subReg _ _ | .shr _ _ | .subnReg _ _ | .shl _ _ | .sneReg _ _
  | .ldI _ | .jpV0 _ | .rnd _ _ | .skp _ | .sknp _ | .ldVxDt _ | .ldVxK _ | .ldDtVx _ | .ldStVx _ | .addIVx _
  | .ldFVx _ => none

/-- The registers an instruction may write: its destinations, and `VF` for the six that write it as a flag (R21, R22). -/
def writesReg (i : Instr) (k : Reg) : Bool :=
  match i with
  | .ldByte x _ | .addByte x _ | .ldReg x _ | .orReg x _ | .andReg x _ | .xorReg x _ | .rnd x _ | .ldVxDt x | .ldVxK x =>
    k == x
  | .addReg x _ | .subReg x _ | .shr x _ | .subnReg x _ | .shl x _ => k == x || k == 0xF
  | .drw _ _ _ => k == 0xF
  | .ldVxMem x => decide (k ≤ x)
  | .sys _ | .cls | .ret | .jp _ | .call _ | .seByte _ _ | .sneByte _ _ | .seReg _ _ | .sneReg _ _ | .ldI _ | .jpV0 _
  | .skp _ | .sknp _ | .ldDtVx _ | .ldStVx _ | .addIVx _ | .ldFVx _ | .ldBVx _ | .ldMemVx _ => false

/-- The instructions that write `I` (R20). -/
def writesI (i : Instr) : Bool := match i with | .ldI _ | .addIVx _ | .ldFVx _ => true | _ => false

/-- The instructions that write `SP` (R20, R26). -/
def writesSp (i : Instr) : Bool := match i with | .call _ | .ret => true | _ => false

/-- The instructions that write `Mem` (R20, R50). -/
def writesMem (i : Instr) : Bool := match i with | .call _ | .ldBVx _ | .ldMemVx _ => true | _ => false

/-- The instructions that write the Screen (R172). -/
def writesScreen (i : Instr) : Bool := match i with | .cls | .drw _ _ _ => true | _ => false

/-- The instructions that sample the keyboard (R191, R200). -/
def readsKey (i : Instr) : Bool := match i with | .skp _ | .sknp _ | .ldVxK _ => true | _ => false

/-- The byte an instruction stores at address `a`, if it stores one there: `V[k]` at `I + k` (R144), a decimal digit (R143),
a half of the pushed `PC + 2`, the high one first (R102). -/
def stored (i : Instr) (s : State) (a : Nat) : Option Byte :=
  let b := fun n : Nat => some (BitVec.ofNat 8 n)
  match i with
  | .ldMemVx x => if h : s.i.toNat ≤ a ∧ a ≤ s.i.toNat + x.val then some (s.reg ⟨a - s.i.toNat, by omega⟩) else none
  | .ldBVx x =>
    if a = s.i.toNat then b ((s.reg x).toNat / 100)
    else if a = s.i.toNat + 1 then b ((s.reg x).toNat / 10 % 10)
    else if a = s.i.toNat + 2 then b ((s.reg x).toNat % 10)
    else none
  | .call _ =>
    if a = s.sp.toNat then b ((s.pc + 2).toNat / 256)
    else if a = s.sp.toNat + 1 then b ((s.pc + 2).toNat % 256)
    else none
  | .sys _ | .cls | .ret | .jp _ | .seByte _ _ | .sneByte _ _ | .seReg _ _ | .ldByte _ _ | .addByte _ _ | .ldReg _ _
  | .orReg _ _ | .andReg _ _ | .xorReg _ _ | .addReg _ _ | .subReg _ _ | .shr _ _ | .subnReg _ _ | .shl _ _
  | .sneReg _ _ | .ldI _ | .jpV0 _ | .rnd _ _ | .drw _ _ _ | .skp _ | .sknp _ | .ldVxDt _ | .ldVxK _ | .ldDtVx _
  | .ldStVx _ | .addIVx _ | .ldFVx _ | .ldVxMem _ => none

/-- The skips of R24. -/
def isSkip (i : Instr) : Bool :=
  match i with
  | .seByte _ _ | .sneByte _ _ | .seReg _ _ | .sneReg _ _ | .skp _ | .sknp _ => true
  | _ => false

/-- The instructions whose `PC` rule is a row of its own in R24: jumps, call, return and the key wait. -/
def setsPc (i : Instr) : Bool :=
  match i with
  | .jp _ | .jpV0 _ | .call _ | .ret | .ldVxK _ => true
  | _ => false

/-- An outcome with its next state, if it has one, changed by `g`. -/
def mapNext (g : State → State) (r : Result) : Result :=
  match r with
  | .next t => .next (g t)
  | .fault f => .fault f
  | .refused q => .refused q

/-- Some 1 bit of the sprite `DRW Vx, Vy, n` draws falls on pixel `(px, py)` (R171): bit 7 of a row is its leftmost
pixel, and each coordinate is reduced on its own. -/
def SpriteOn (s : State) (x y : Reg) (n px py : Nat) : Prop :=
  ∃ row col, row < n ∧ col < 8 ∧ (s.mem.read (s.i.toNat + row)).getLsbD (7 - col) = true ∧
    px = ((s.reg x).toNat + col) % Config.screenW ∧ py = ((s.reg y).toNat + row) % Config.screenH

/-- The pixel `(px, py)` is on. -/
def PixelOn (s : State) (px py : Nat) : Prop := s.screen.getPixel px py = true

/-- The instruction completes with `V[x]` the bit-by-bit combination of the old `V[x]` and `V[y]`, `PC` 2 further, and
nothing else changed. -/
def BitwiseResult (i : Instr) (x y : Reg) (f : Bool → Bool → Bool) : Prop :=
  ∀ s : State, ∃ t, exec i s = .next t ∧
    (∀ n, n < 8 → (t.reg x).getLsbD n = f ((s.reg x).getLsbD n) ((s.reg y).getLsbD n)) ∧
    (∀ k, k ≠ x → t.reg k = s.reg k) ∧ t.pc = s.pc + 2 ∧ t = { s with v := t.v, pc := t.pc }

end Sys2Proof.Claim

open Sys2Proof Sys2Proof.Machine Sys2Proof.Safety Sys2Proof.Claim

/-! ### Encoding (spec/30_encoding.md) -/

/-- The source's encoding examples (R95) and one word of each other family decode to the instructions they stand for. The
patterns of `9xy0`, `Fx15`, `Ex9E` and `0nnn` are from general knowledge, as the spec marks them (R86, D1;
notes/assumptions/13.md, PRESUMED). -/
def Obligations.WrittenOutWordsDecode : Prop :=
  decodeWord 0x632A = .ok (.ldByte 3 0x2A) ∧ decodeWord 0x1200 = .ok (.jp 0x200) ∧ decodeWord 0x00E0 = .ok .cls ∧
  decodeWord 0xA234 = .ok (.ldI 0x234) ∧ decodeWord 0x0000 = .ok (.sys 0x000) ∧ decodeWord 0x8124 = .ok (.addReg 1 2) ∧
  decodeWord 0x9120 = .ok (.sneReg 1 2) ∧ decodeWord 0xF315 = .ok (.ldDtVx 3) ∧ decodeWord 0xE19E = .ok (.skp 1) ∧
  decodeWord 0xD12F = .ok (.drw 1 2 15)

/-- Decoding the opcode of a well-formed instruction gives the instruction, at every value of its fields (R85, R95). -/
def Obligations.DecodeOfEncode : Prop :=
  ∀ i : Instr, i.wellFormed = true → decodeWord (encode i) = .ok i

/-- A word that decodes to an instruction is that instruction's opcode, and the instruction is well formed: no bit of the
word is dropped, and each word has one meaning (R85). -/
def Obligations.EncodeOfDecode : Prop :=
  ∀ (op : Word) (i : Instr), decodeWord op = .ok i → i.wellFormed = true ∧ encode i = op

/-- The decoder rejects exactly the words of R87's table, by the name `illegal` and with the word. -/
def Obligations.RejectedWordsAreTheTable : Prop :=
  ∀ op : Word, (IllegalPattern op → decodeWord op = .error (.illegal op)) ∧
    (¬ IllegalPattern op → ∃ i, decodeWord op = .ok i)

/-- An instruction is two bytes, the one at the lower address the more significant half of its opcode, and decoding takes
these two and leaves the bytes after them (R57, R80). -/
def Obligations.DecodeTakesTwoBytes : Prop :=
  ∀ (i : Instr) (rest : List Byte), i.wellFormed = true →
    ∃ hi lo, encodeBytes i = [hi, lo] ∧ hi.toNat * 256 + lo.toNat = (encode i).toNat ∧
      decode (encodeBytes i ++ rest) = .ok (i, rest)

/-! ### Memory access (spec/20_memory.md) -/

/-- A one-byte access succeeds exactly in `0..4095`, and faults with its own address elsewhere; a read gives the cell
and a write sets the cell and no other (R53, R55). -/
def Obligations.ByteAccessBoundsAndEffect : Prop :=
  ∀ (s : State) (a : Int) (b : Byte),
    (a < 0 ∨ 4095 < a → s.memRead1 a = .error (.addressFault a) ∧ s.memWrite1 a b = .error (.addressFault a)) ∧
    (0 ≤ a ∧ a ≤ 4095 → s.memRead1 a = .ok (s.mem.read a.toNat) ∧
      ∃ t, s.memWrite1 a b = .ok t ∧ t = { s with mem := t.mem } ∧
        ∀ c, t.mem.read c = if c = a.toNat then b else s.mem.read c)

/-- A two-byte access is big-endian, and names the first of its two addresses that is out of range (R54, R56). -/
def Obligations.WordAccessBigEndian : Prop :=
  ∀ (s : State) (a : Int) (w : Word),
    (0 ≤ a ∧ a ≤ 4094 → (∃ r, s.memRead2 a = .ok r ∧
        r.toNat = (s.mem.read a.toNat).toNat * 256 + (s.mem.read (a.toNat + 1)).toNat) ∧
      ∃ t, s.memWrite2 a w = .ok t ∧ t.memRead2 a = .ok w ∧ t = { s with mem := t.mem } ∧
        ∀ c, c ≠ a.toNat → c ≠ a.toNat + 1 → t.mem.read c = s.mem.read c) ∧
    (a = 4095 → s.memRead2 a = .error (.addressFault 4096) ∧ s.memWrite2 a w = .error (.addressFault 4096)) ∧
    (a < 0 ∨ 4095 < a → s.memRead2 a = .error (.addressFault a) ∧ s.memWrite2 a w = .error (.addressFault a))

/-! ### The step (spec/50_interfaces.md) -/

/-- When the CPU is enabled and the two bytes at `PC` decode to `i`, the step is `exec i`, and the environment's turn
after it if that answers a next state (R58, R191; the turn's place is the model's, DESIGN CHOICE, notes/assumptions/7.md). -/
def Obligations.StepRunsDecodedInstruction : Prop :=
  ∀ (s : State) (i : Instr), s.cpuEnabled = true → s.pc.toNat ≤ 0xFFE →
    decodeWord (wordOfBytes (s.mem.read s.pc.toNat) (s.mem.read (s.pc.toNat + 1))) = .ok i →
    step s = match exec i s with
      | .next t => .next t.turn
      | .fault f => .fault f
      | .refused q => .refused q

/-- A fetched word that matches no instruction stops the step with `DecodeFault(op, PC)` (R181, R221). -/
def Obligations.StepFaultsOnIllegalWord : Prop :=
  ∀ (s : State) (op : Word), s.cpuEnabled = true → s.pc.toNat ≤ 0xFFE →
    op = wordOfBytes (s.mem.read s.pc.toNat) (s.mem.read (s.pc.toNat + 1)) → IllegalPattern op →
    step s = .fault (.decodeFault op s.pc)

/-- A fetch with `PC` above `0xFFE` stops the step: `AddressFault(PC)` above `0xFFF`, `AddressFault(0x1000)` at `0xFFF`
(R58, R223). -/
def Obligations.StepFaultsOnFetchPastTop : Prop :=
  ∀ s : State, s.cpuEnabled = true → s.pc.toNat > 0xFFE →
    step s = .fault (.addressFault (if s.pc.toNat = 0xFFF then 0x1000 else (s.pc.toNat : Int)))

/-- A paused, stopped or faulted engine takes no CPU step (R29, R191, R211). That its step is the environment's turn alone is
the model's choice (DESIGN CHOICE, notes/assumptions/7.md). With no host operation in it the turn changes only the timers
and what the environment presents; that the timers tick in these conditions too, after a stop or a fault among them, is
D18, the spec's own decision. -/
def Obligations.DisabledCpuTakesNoStep : Prop :=
  ∀ s : State, (s.run = .paused ∨ s.loop ≠ .active) →
    step s = .next s.turn ∧
    ((∀ u rest, s.inputs = u :: rest → u.host = []) →
      s.turn = { s with dt := s.turn.dt, st := s.turn.st, pressedKey := s.turn.pressedKey, rnd := s.turn.rnd,
                        inputs := s.turn.inputs, turns := s.turn.turns })

/-- A turn of the environment is so many single ticks one after the other, with a new key and a new random byte, and
then the host's operations in order; its values come from the schedule while one is there, and are free otherwise
(R192, R193, R200; the schedule is the model's own, notes/assumptions/3.md, 4.md, 5.md and 7.md). -/
def Obligations.TurnIsTicksThenHost : Prop :=
  ∀ s : State,
    (∀ u rest, s.inputs = u :: rest →
      s.turn = List.foldl (fun t c => t.hostCommand c)
        { (State.timerTick^[u.ticks] s) with inputs := rest, pressedKey := u.key, rnd := u.rnd } u.host) ∧
    (s.inputs = [] →
      s.turn = { (State.timerTick^[Config.freeTicks s.turns] s) with
                 turns := s.turns + 1, pressedKey := Config.freeKey s.turns, rnd := Config.freeByte s.turns })

/-- One tick takes each timer one toward zero and never below, and touches nothing else (R27, R192). -/
def Obligations.TickNeverBelowZero : Prop :=
  ∀ s : State, s.timerTick.dt.toNat = s.dt.toNat - 1 ∧ s.timerTick.st.toNat = s.st.toNat - 1 ∧
    s.timerTick = { s with dt := s.timerTick.dt, st := s.timerTick.st }

/-! ### Control flow (spec/40_control_flow.md) -/

/-- `JP addr`: encoding `1nnn`, `PC` becomes `nnn` and nothing else changes (R101). -/
def Obligations.JumpResult : Prop :=
  ∀ (nnn : Addr) (s : State), decodeWord ((0x1#4 ++ nnn : BitVec (4 + 12))) = .ok (.jp nnn) ∧
    ∃ t, exec (.jp nnn) s = .next t ∧ t.pc.toNat = nnn.toNat ∧ t = { s with pc := t.pc }

/-- `JP V0, addr`: encoding `Bnnn`, `PC` becomes `(nnn + V0) & 0xFFF`, so the jump wraps at the top of `Mem`, and
nothing else changes (R103). -/
def Obligations.JumpWithOffsetResult : Prop :=
  ∀ (nnn : Addr) (s : State), decodeWord ((0xB#4 ++ nnn : BitVec (4 + 12))) = .ok (.jpV0 nnn) ∧
    ∃ t, exec (.jpV0 nnn) s = .next t ∧ t.pc.toNat = (nnn.toNat + (s.reg 0).toNat) % 0x1000 ∧ t = { s with pc := t.pc }

/-- `CALL addr` completes with `SP` at most `0xFFE`: the entry at `SP` is `PC + 2`, high byte first, `SP` grows by 2,
`PC` becomes `nnn`, and no other byte changes (R102; D4, D5, the spec's own decisions). -/
def Obligations.CallResult : Prop :=
  ∀ (nnn : Addr) (s : State), s.sp.toNat ≤ 0xFFE →
    ∃ t, exec (.call nnn) s = .next t ∧ t.pc.toNat = nnn.toNat ∧ t.sp = s.sp + 2 ∧
      wordOfBytes (t.mem.read s.sp.toNat) (t.mem.read (s.sp.toNat + 1)) = s.pc + 2 ∧
      (∀ a, a ≠ s.sp.toNat → a ≠ s.sp.toNat + 1 → t.mem.read a = s.mem.read a) ∧
      t = { s with mem := t.mem, sp := t.sp, pc := t.pc }

/-- `RET` completes with `SP` in `2..0x1000`: `SP` falls by 2 and `PC` becomes the entry there, high byte first, all 16
bits; nothing else changes (R100; D4, D5, the spec's own decisions). -/
def Obligations.ReturnResult : Prop :=
  ∀ s : State, 2 ≤ s.sp.toNat → s.sp.toNat ≤ 0x1000 →
    exec .ret s = .next { s with
      sp := s.sp - 2
      pc := wordOfBytes (s.mem.read (s.sp.toNat - 2)) (s.mem.read (s.sp.toNat - 1)) }

/-- A `CALL` and the `RET` that meets its entry come back to the instruction after the `CALL`, with the stack pointer
and every register as before (R100, R102). -/
def Obligations.CallThenReturnComesBack : Prop :=
  ∀ (nnn : Addr) (s t : State), exec (.call nnn) s = .next t →
    ∃ u, exec .ret t = .next u ∧ u.pc = s.pc + 2 ∧ u.sp = s.sp ∧ u.v = s.v ∧ u.i = s.i ∧
      ∀ pc', exec .ret { t with pc := pc' } = .next u

/-! ### Skips (spec/41_skips.md) -/

/-- `SE Vx, byte` and `SNE Vx, byte`: the one skips when the two are equal, the other when they differ; nothing but `PC`
changes (R110, R111; from general knowledge, as the spec marks them). -/
def Obligations.SkipOnByteResult : Prop :=
  ∀ (x : Reg) (kk : Byte) (s : State),
    exec (.seByte x kk) s = .next { s with pc := if (s.reg x).toNat = kk.toNat then s.pc + 4 else s.pc + 2 } ∧
    exec (.sneByte x kk) s = .next { s with pc := if (s.reg x).toNat = kk.toNat then s.pc + 2 else s.pc + 4 }

/-- `SE Vx, Vy` and `SNE Vx, Vy`, `x = y` among the cases; nothing but `PC` changes (R112, R113; from general knowledge,
as the spec marks them). -/
def Obligations.SkipOnRegisterResult : Prop :=
  ∀ (x y : Reg) (s : State),
    exec (.seReg x y) s = .next { s with pc := if (s.reg x).toNat = (s.reg y).toNat then s.pc + 4 else s.pc + 2 } ∧
    exec (.sneReg x y) s = .next { s with pc := if (s.reg x).toNat = (s.reg y).toNat then s.pc + 2 else s.pc + 4 }

/-! ### Loads, arithmetic, logic, random (spec/42_alu.md) -/

/-- `LD Vx, byte`: encoding `6xkk`, `V[x]` becomes `kk`, every other register, `VF` among them unless it is `x`, and
everything else but `PC` as before (R121). -/
def Obligations.LoadByteResult : Prop :=
  ∀ (x : Reg) (kk : Byte) (s : State),
    decodeWord ((0x6#4 ++ nibble x ++ kk : BitVec (4 + 4 + 8))) = .ok (.ldByte x kk) ∧
    ∃ t, exec (.ldByte x kk) s = .next t ∧ t.reg x = kk ∧ (∀ k, k ≠ x → t.reg k = s.reg k) ∧ t.pc = s.pc + 2 ∧
      t = { s with v := t.v, pc := t.pc }

/-- `ADD Vx, byte`: the sum modulo 256, with no flag (R122; the pattern and the silence on `VF`, D8, are the spec's
own). -/
def Obligations.AddByteResult : Prop :=
  ∀ (x : Reg) (kk : Byte) (s : State), ∃ t, exec (.addByte x kk) s = .next t ∧
    (t.reg x).toNat = ((s.reg x).toNat + kk.toNat) % 256 ∧ (∀ k, k ≠ x → t.reg k = s.reg k) ∧ t.pc = s.pc + 2 ∧
    t = { s with v := t.v, pc := t.pc }

/-- `LD Vx, Vy`, `OR`, `AND`, `XOR`, bit by bit, with no flag and no other register changed (R123 to R126; from general
knowledge, as the spec marks them). -/
def Obligations.CopyAndLogicResult : Prop :=
  ∀ x y : Reg, BitwiseResult (.ldReg x y) x y (fun _ b => b) ∧ BitwiseResult (.orReg x y) x y or ∧
    BitwiseResult (.andReg x y) x y and ∧ BitwiseResult (.xorReg x y) x y xor

/-- `ADD Vx, Vy` in the five cases of R127, with `a`, `b`, `f` the old `V[x]`, `V[y]`, `VF` (the order of the two writes
is the spec's decision D7). -/
def Obligations.AddWithCarryResult : Prop :=
  ∀ (x y : Reg) (s : State), ∃ t, exec (.addReg x y) s = .next t ∧
    let a := (s.reg x).toNat
    let b := (s.reg y).toNat
    let f := (s.reg 0xF).toNat
    let c := if a + b > 255 then 1 else 0
    (x ≠ 0xF → y ≠ 0xF → (t.reg x).toNat = (a + b) % 256 ∧ (t.reg 0xF).toNat = c) ∧
    (x ≠ 0xF → y = 0xF → (t.reg x).toNat = (a + c) % 256 ∧ (t.reg 0xF).toNat = c) ∧
    (x = 0xF → y ≠ 0xF → (t.reg 0xF).toNat = (c + b) % 256) ∧
    (x = 0xF → y = 0xF → (t.reg 0xF).toNat = if f ≥ 128 then 2 else 0) ∧
    (∀ k, k ≠ x → k ≠ 0xF → t.reg k = s.reg k) ∧ t.pc = s.pc + 2 ∧ t = { s with v := t.v, pc := t.pc }

/-- `SUB Vx, Vy` in the five cases of R128: the flag is 1 on a borrow (the order of the two writes is the spec's
decision D7). -/
def Obligations.SubtractResult : Prop :=
  ∀ (x y : Reg) (s : State), ∃ t, exec (.subReg x y) s = .next t ∧
    let a := (s.reg x).toNat
    let b := (s.reg y).toNat
    let c := if a < b then 1 else 0
    (x ≠ 0xF → y ≠ 0xF → (t.reg x).toNat = (a + 256 - b) % 256 ∧ (t.reg 0xF).toNat = c) ∧
    (x ≠ 0xF → y = 0xF → (t.reg x).toNat = (a + 256 - c) % 256 ∧ (t.reg 0xF).toNat = c) ∧
    (x = 0xF → y ≠ 0xF → (t.reg 0xF).toNat = (c + 256 - b) % 256) ∧
    (x = 0xF → y = 0xF → (t.reg 0xF).toNat = 0) ∧
    (∀ k, k ≠ x → k ≠ 0xF → t.reg k = s.reg k) ∧ t.pc = s.pc + 2 ∧ t = { s with v := t.v, pc := t.pc }

/-- `SUBN Vx, Vy` in the five cases of R130: the same difference as `SUB`, the flag 1 exactly when `V[x] > V[y]` (the
order of the two writes is the spec's decision D7). -/
def Obligations.SubtractNResult : Prop :=
  ∀ (x y : Reg) (s : State), ∃ t, exec (.subnReg x y) s = .next t ∧
    let a := (s.reg x).toNat
    let b := (s.reg y).toNat
    let c := if a > b then 1 else 0
    (x ≠ 0xF → y ≠ 0xF → (t.reg x).toNat = (a + 256 - b) % 256 ∧ (t.reg 0xF).toNat = c) ∧
    (x ≠ 0xF → y = 0xF → (t.reg x).toNat = (a + 256 - c) % 256 ∧ (t.reg 0xF).toNat = c) ∧
    (x = 0xF → y ≠ 0xF → (t.reg 0xF).toNat = (c + 256 - b) % 256) ∧
    (x = 0xF → y = 0xF → (t.reg 0xF).toNat = 0) ∧
    (∀ k, k ≠ x → k ≠ 0xF → t.reg k = s.reg k) ∧ t.pc = s.pc + 2 ∧ t = { s with v := t.v, pc := t.pc }

/-- `SHR Vx`: the old bit 0 goes to `VF` and `V[x]` is halved, whatever `y` is; with `x = F`, `VF` ends 0 (R129; the order
of the two writes is the spec's decision D7). -/
def Obligations.ShiftRightResult : Prop :=
  ∀ (x y : Reg) (s : State), ∃ t, exec (.shr x y) s = .next t ∧
    (x ≠ 0xF → (t.reg x).toNat = (s.reg x).toNat / 2 ∧ (t.reg 0xF).toNat = (s.reg x).toNat % 2) ∧
    (x = 0xF → t.reg 0xF = 0) ∧
    (∀ k, k ≠ x → k ≠ 0xF → t.reg k = s.reg k) ∧ t.pc = s.pc + 2 ∧ t = { s with v := t.v, pc := t.pc }

/-- `SHL Vx`: `VF` becomes `0x80` or 0 as bit 7 was set, and `V[x]` is doubled modulo 256, whatever `y` is; with `x = F`,
`VF` ends 0 (R131; the order of the two writes is the spec's decision D7). -/
def Obligations.ShiftLeftResult : Prop :=
  ∀ (x y : Reg) (s : State), ∃ t, exec (.shl x y) s = .next t ∧
    (x ≠ 0xF → (t.reg x).toNat = (s.reg x).toNat * 2 % 256 ∧
      (t.reg 0xF).toNat = if (s.reg x).toNat ≥ 128 then 0x80 else 0) ∧
    (x = 0xF → t.reg 0xF = 0) ∧
    (∀ k, k ≠ x → k ≠ 0xF → t.reg k = s.reg k) ∧ t.pc = s.pc + 2 ∧ t = { s with v := t.v, pc := t.pc }

/-- `RND Vx, byte`: whatever byte the environment presents, `V[x]` is that byte under the mask `kk`, so no bit outside
`kk` is set; the byte is free, and nothing else changes (R132; notes/assumptions/5.md). -/
def Obligations.RandomResult : Prop :=
  ∀ (x : Reg) (kk r : Byte) (s : State), ∃ t, exec (.rnd x kk) { s with rnd := r } = .next t ∧
    (∀ n, (t.reg x).getLsbD n = (r.getLsbD n && kk.getLsbD n)) ∧ t.reg x &&& ~~~kk = 0 ∧
    (∀ k, k ≠ x → t.reg k = s.reg k) ∧ t.pc = s.pc + 2 ∧ t = { s with rnd := r, v := t.v, pc := t.pc }

/-! ### Memory and index (spec/43_memory_index.md) -/

/-- `LD I, addr`: encoding `Annn`, `I` becomes `nnn` and nothing else but `PC` changes (R140). -/
def Obligations.LoadIndexResult : Prop :=
  ∀ (nnn : Addr) (s : State), decodeWord ((0xA#4 ++ nnn : BitVec (4 + 12))) = .ok (.ldI nnn) ∧
    ∃ t, exec (.ldI nnn) s = .next t ∧ t.i.toNat = nnn.toNat ∧ t.pc = s.pc + 2 ∧ t = { s with i := t.i, pc := t.pc }

/-- `ADD I, Vx`: the sum modulo 65536, not masked to 12 bits, and never a fault or a flag (R141; the wrap D3 and the
silence on `VF` D8 are the spec's own decisions). -/
def Obligations.AddIndexResult : Prop :=
  ∀ (x : Reg) (s : State), ∃ t, exec (.addIVx x) s = .next t ∧
    t.i.toNat = (s.i.toNat + (s.reg x).toNat) % 65536 ∧ t.pc = s.pc + 2 ∧ t = { s with i := t.i, pc := t.pc }

/-- `LD F, Vx`: encoding `Fx29`, `I` becomes five times the whole of `V[x]`, and nothing else but `PC` changes (R142). -/
def Obligations.FontPointerResult : Prop :=
  ∀ (x : Reg) (s : State), decodeWord ((0xF#4 ++ nibble x ++ 0x29#8 : BitVec (4 + 4 + 8))) = .ok (.ldFVx x) ∧
    ∃ t, exec (.ldFVx x) s = .next t ∧ t.i.toNat = (s.reg x).toNat * 5 ∧ t.pc = s.pc + 2 ∧
      t = { s with i := t.i, pc := t.pc }

/-- `LD B, Vx`: encoding `Fx33`; with `I` at most `0xFFD` the three decimal digits of `V[x]` go to `I`, `I + 1`, `I + 2`,
and no other byte, no register and not `I` changes; above, the first address out of range faults and, a fault having no
next state, nothing is written (R143). -/
def Obligations.BcdStoreResult : Prop :=
  ∀ (x : Reg) (s : State), decodeWord ((0xF#4 ++ nibble x ++ 0x33#8 : BitVec (4 + 4 + 8))) = .ok (.ldBVx x) ∧
    (s.i.toNat ≤ 0xFFD → ∃ t, exec (.ldBVx x) s = .next t ∧
      (t.mem.read s.i.toNat).toNat = (s.reg x).toNat / 100 ∧
      (t.mem.read (s.i.toNat + 1)).toNat = (s.reg x).toNat / 10 % 10 ∧
      (t.mem.read (s.i.toNat + 2)).toNat = (s.reg x).toNat % 10 ∧
      (∀ a, a < s.i.toNat ∨ s.i.toNat + 2 < a → t.mem.read a = s.mem.read a) ∧
      t.pc = s.pc + 2 ∧ t = { s with mem := t.mem, pc := t.pc }) ∧
    (s.i.toNat > 0xFFD → exec (.ldBVx x) s = .fault (.addressFault (max (s.i.toNat : Int) 0x1000)))

/-- `LD [I], Vx`: encoding `Fx55`; with `I + x` in `Mem` byte `I + k` becomes `V[k]` for `k` up to `x`, and no other byte,
no register and not `I` changes; otherwise the first address out of range faults and nothing is written (R144). -/
def Obligations.StoreRegistersResult : Prop :=
  ∀ (x : Reg) (s : State), decodeWord ((0xF#4 ++ nibble x ++ 0x55#8 : BitVec (4 + 4 + 8))) = .ok (.ldMemVx x) ∧
    (s.i.toNat + x.val ≤ 0xFFF → ∃ t, exec (.ldMemVx x) s = .next t ∧
      (∀ k : Reg, k ≤ x → t.mem.read (s.i.toNat + k.val) = s.reg k) ∧
      (∀ a, a < s.i.toNat ∨ s.i.toNat + x.val < a → t.mem.read a = s.mem.read a) ∧
      t.pc = s.pc + 2 ∧ t = { s with mem := t.mem, pc := t.pc }) ∧
    (s.i.toNat + x.val > 0xFFF → exec (.ldMemVx x) s = .fault (.addressFault (max (s.i.toNat : Int) 0x1000)))

/-- `LD Vx, [I]`: encoding `Fx65`; with `I + x` in `Mem` register `V[k]` becomes byte `I + k` for `k` up to `x`, and no
other register, no byte and not `I` changes; otherwise the first address out of range faults and no register is loaded
(R145). -/
def Obligations.LoadRegistersResult : Prop :=
  ∀ (x : Reg) (s : State), decodeWord ((0xF#4 ++ nibble x ++ 0x65#8 : BitVec (4 + 4 + 8))) = .ok (.ldVxMem x) ∧
    (s.i.toNat + x.val ≤ 0xFFF → ∃ t, exec (.ldVxMem x) s = .next t ∧
      (∀ k : Reg, k ≤ x → t.reg k = s.mem.read (s.i.toNat + k.val)) ∧
      (∀ k : Reg, x < k → t.reg k = s.reg k) ∧
      t.pc = s.pc + 2 ∧ t = { s with v := t.v, pc := t.pc }) ∧
    (s.i.toNat + x.val > 0xFFF → exec (.ldVxMem x) s = .fault (.addressFault (max (s.i.toNat : Int) 0x1000)))

/-- Registers stored by `LD [I], Vx` come back by `LD Vx, [I]` into whatever register file is there by then (R144,
R145). -/
def Obligations.StoreThenLoadRegisters : Prop :=
  ∀ (x : Reg) (s t : State) (v : Vector Byte 16), exec (.ldMemVx x) s = .next t →
    ∃ u, exec (.ldVxMem x) { t with v := v } = .next u ∧ ∀ k : Reg, u.reg k = if k ≤ x then s.reg k else v[k]

/-! ### Timers (spec/44_timers.md) -/

/-- `LD Vx, DT`, `LD DT, Vx`, `LD ST, Vx`: the one register or timer named is written, and `PC`; nothing else (R150 to
R152; from general knowledge, as the spec marks them). -/
def Obligations.TimerInstructionResults : Prop :=
  ∀ (x : Reg) (s : State),
    (∃ t, exec (.ldVxDt x) s = .next t ∧ t.reg x = s.dt ∧ (∀ k, k ≠ x → t.reg k = s.reg k) ∧ t.pc = s.pc + 2 ∧
      t = { s with v := t.v, pc := t.pc }) ∧
    exec (.ldDtVx x) s = .next { s with dt := s.reg x, pc := s.pc + 2 } ∧
    exec (.ldStVx x) s = .next { s with st := s.reg x, pc := s.pc + 2 }

/-- The sound follows `ST`: on exactly while it is not zero, with `noteOn` and `noteOff` at the edges, whichever of `LD ST,
Vx`, a tick or a reset makes them (R203; the level is the spec's decision D19). -/
def Obligations.SoundFollowsSt : Prop :=
  ∀ s t : State, (s.soundOn = true ↔ s.st.toNat ≠ 0) ∧
    (audioCall s t = some .noteOn ↔ s.st.toNat = 0 ∧ t.st.toNat ≠ 0) ∧
    (audioCall s t = some .noteOff ↔ s.st.toNat ≠ 0 ∧ t.st.toNat = 0) ∧
    (audioCall s s.timerTick = some .noteOff ↔ s.st.toNat = 1) ∧ audioCall s s.timerTick ≠ some .noteOn

/-! ### Keys (spec/45_keys.md) -/

/-- `SKP Vx` and `SKNP Vx`: the pressed key is compared with the whole byte `V[x]`, and the two skip in exactly opposite
cases; nothing but `PC` changes (R160, R161; from general knowledge and D16, as the spec marks them). -/
def Obligations.KeySkipResults : Prop :=
  ∀ (x : Reg) (s : State),
    ((∃ k : Key, s.pressedKey = some k ∧ k.val = (s.reg x).toNat) →
      exec (.skp x) s = .next { s with pc := s.pc + 4 } ∧ exec (.sknp x) s = .next { s with pc := s.pc + 2 }) ∧
    ((∀ k : Key, s.pressedKey = some k → k.val ≠ (s.reg x).toNat) →
      exec (.skp x) s = .next { s with pc := s.pc + 2 } ∧ exec (.sknp x) s = .next { s with pc := s.pc + 4 })

/-- `LD Vx, K` with key `k` pressed: `V[x]` becomes the key number, and nothing else but `PC` changes (R162). -/
def Obligations.KeyWaitCompletes : Prop :=
  ∀ (x : Reg) (s : State) (k : Key), s.pressedKey = some k →
    ∃ t, exec (.ldVxK x) s = .next t ∧ (t.reg x).toNat = k.val ∧ (∀ j, j ≠ x → t.reg j = s.reg j) ∧ t.pc = s.pc + 2 ∧
      t = { s with v := t.v, pc := t.pc }

/-- `LD Vx, K` with no key pressed is a stutter (R162; D17, the spec's own decision): the CPU step changes nothing, so a
step of the machine is the environment's turn alone (that a turn follows is the model's, notes/assumptions/7.md); and a
turn without a host operation leaves `PC` and the word there, so the same instruction is fetched again. -/
def Obligations.KeyWaitStutters : Prop :=
  ∀ (x : Reg) (s : State), s.pressedKey = none → exec (.ldVxK x) s = .next s ∧
    (s.cpuEnabled = true → s.fetch = .ok (encode (.ldVxK x)) → step s = .next s.turn ∧
      ((∀ u rest, s.inputs = u :: rest → u.host = []) →
        s.turn.pc = s.pc ∧ s.turn.fetch = .ok (encode (.ldVxK x)) ∧ s.turn.cpuEnabled = true))

/-! ### Display (spec/46_display.md) -/

/-- `CLS`: encoding `00E0`, every pixel is off, and nothing else but `PC` changes, `VF` among what stays (R170). -/
def Obligations.ClearScreenResult : Prop :=
  ∀ s : State, decodeWord 0x00E0 = .ok .cls ∧
    ∃ t, exec .cls s = .next t ∧ (∀ px py, px < 64 → py < 32 → t.screen.getPixel px py = false) ∧ t.pc = s.pc + 2 ∧
      t = { s with screen := t.screen, pc := t.pc }

/-- `DRW Vx, Vy, n` with its `n` bytes in `Mem` (none when `n = 0`): a pixel is on afterwards exactly when it was on and no
sprite bit falls on it, or it was off and one does; `VF` becomes 1 if a pixel went from on to off and 0 otherwise; no
other register, no byte and not `I` changes (R171; the leftmost bit and the order of the reads are D15, the spec's
own decision). -/
def Obligations.DrawResult : Prop :=
  ∀ (x y : Reg) (n : Fin 16) (s : State), n.val = 0 ∨ s.i.toNat + n.val ≤ 0x1000 →
    ∃ t, exec (.drw x y n) s = .next t ∧
      (∀ px py, px < 64 → py < 32 →
        (PixelOn t px py ↔ (PixelOn s px py ∧ ¬ SpriteOn s x y n.val px py) ∨
          (¬ PixelOn s px py ∧ SpriteOn s x y n.val px py))) ∧
      ((∃ px py, PixelOn s px py ∧ SpriteOn s x y n.val px py) → t.reg 0xF = 1) ∧
      ((¬ ∃ px py, PixelOn s px py ∧ SpriteOn s x y n.val px py) → t.reg 0xF = 0) ∧
      (∀ k, k ≠ 0xF → t.reg k = s.reg k) ∧ t.pc = s.pc + 2 ∧ t = { s with v := t.v, screen := t.screen, pc := t.pc }

/-- A sprite drawn twice at the same place leaves the Screen as it was. The first draw sets `VF` exactly when some pixel of
the sprite was on, the second exactly when some pixel of it was off, so a sprite with a 1 bit collides in one of the two
(R171 case 7; the order of the reads and of the write of `VF` is D15, the spec's own decision). With `x` or `y` naming `VF`
the second draw is at another place. -/
def Obligations.DrawTwiceRestoresScreen : Prop :=
  ∀ (x y : Reg) (n : Fin 16) (s t : State), s.screen.wf → x ≠ 0xF → y ≠ 0xF → exec (.drw x y n) s = .next t →
    ∃ u, exec (.drw x y n) t = .next u ∧ u.screen = s.screen ∧
      (t.reg 0xF = 1 ↔ ∃ px py, SpriteOn s x y n.val px py ∧ PixelOn s px py) ∧
      (u.reg 0xF = 1 ↔ ∃ px py, SpriteOn s x y n.val px py ∧ ¬ PixelOn s px py) ∧
      ((∃ px py, SpriteOn s x y n.val px py) → t.reg 0xF = 1 ∨ u.reg 0xF = 1)

/-! ### `SYS` (spec/47_sys_fill.md) -/

/-- `SYS addr` always stops with `DecodeFault`, carrying its own word and its address (R180; D9, the spec's own
decision). -/
def Obligations.SysAlwaysFaults : Prop :=
  ∀ (nnn : Addr) (s : State), exec (.sys nnn) s = .fault (.decodeFault (BitVec.ofNat 16 nnn.toNat) s.pc)

/-! ### The whole machine -/

/-- Every instruction answers a next state or the one fault R223's table gives it, and it faults in exactly the
table's cases; none is refused. -/
def Obligations.FaultsAreExactlyTheTable : Prop :=
  ∀ (i : Instr) (s : State),
    (∀ f, faultOf i s = some f → exec i s = .fault f) ∧ (faultOf i s = none → ∃ t, exec i s = .next t)

/-- The table of writers: an instruction that completes changes a register, `I`, `SP`, `DT`, `ST`, a byte of `Mem` or the
Screen only if it is one of those that R20, R21 and R22 list for it (that no others write `VF` is D8, the spec's own
decision), and never the engine's state or what the environment presents (R29, R30, R39, R172). -/
def Obligations.OnlyListedWritersWrite : Prop :=
  ∀ (i : Instr) (s t : State), exec i s = .next t →
    (∀ k, writesReg i k = false → t.reg k = s.reg k) ∧
    (writesI i = false → t.i = s.i) ∧ (writesSp i = false → t.sp = s.sp) ∧
    ((∀ x, i ≠ .ldDtVx x) → t.dt = s.dt) ∧ ((∀ x, i ≠ .ldStVx x) → t.st = s.st) ∧
    (writesMem i = false → ∀ a, t.mem.read a = s.mem.read a) ∧ (writesScreen i = false → t.screen = s.screen) ∧
    t.run = s.run ∧ t.loaded = s.loaded ∧ t.loop = s.loop ∧ t.pressedKey = s.pressedKey ∧ t.rnd = s.rnd ∧
    t.inputs = s.inputs ∧ t.turns = s.turns

/-- How a completed instruction leaves `PC`: 2 further for a sequential one, 2 or 4 further for a skip (R24). -/
def Obligations.ProgramCounterAdvance : Prop :=
  ∀ (i : Instr) (s t : State), exec i s = .next t →
    (isSkip i = true → t.pc = s.pc + 2 ∨ t.pc = s.pc + 4) ∧
    (isSkip i = false → setsPc i = false → t.pc = s.pc + 2)

/-- Only the key instructions depend on the keyboard's answer, and only `RND` on the random byte: for any other
instruction another answer leaves the outcome the same but for that answer itself (R191, R200). -/
def Obligations.OnlyKeyAndRandomReadTheEnvironment : Prop :=
  ∀ (i : Instr) (s : State),
    (readsKey i = false → ∀ k, exec i { s with pressedKey := k } =
      mapNext (fun t => { t with pressedKey := k }) (exec i s)) ∧
    ((∀ x kk, i ≠ .rnd x kk) → ∀ r, exec i { s with rnd := r } = mapNext (fun t => { t with rnd := r }) (exec i s))

/-- A store is seen by the very next fetch, with no fence (R68, R80). For every instruction that completes with `PC` at two
cells, the word fetched next is made of the bytes the instruction stored there, and of the old bytes where it stored
none: `LD [I], Vx`, `LD B, Vx` and the push of a `CALL` over code, whole or by one byte, and every instruction that stores
nothing. (The entry a `CALL` pushes is D5, the spec's own decision.) -/
def Obligations.StoreSeenByNextFetch : Prop :=
  ∀ (i : Instr) (s t : State), exec i s = .next t → t.pc.toNat ≤ 0xFFE →
    ∃ w, t.fetch = .ok w ∧ w.toNat = ((stored i s t.pc.toNat).getD (s.mem.read t.pc.toNat)).toNat * 256 +
      ((stored i s (t.pc.toNat + 1)).getD (s.mem.read (t.pc.toNat + 1))).toNat

/-- A fault commits nothing: after it the run loop has ended, and with no host operation the CPU takes no further step
and everything but the timers and what the environment presents is as before the faulting step (R224, R226, R227; that the
timers tick on is D18, all-or-nothing D11, the spec's own decisions; the turn is the model's, notes/assumptions/7.md). -/
def Obligations.FaultCommitsNothing : Prop :=
  ∀ (s : State) (f : Fault), step s = .fault f → (∀ u rest, s.inputs = u :: rest → u.host = []) →
    (systemStep s).loop = .faulted f ∧ (systemStep s).cpuEnabled = false ∧
    systemStep s = { s with
      loop := .faulted f, dt := (systemStep s).dt, st := (systemStep s).st, pressedKey := (systemStep s).pressedKey,
      rnd := (systemStep s).rnd, inputs := (systemStep s).inputs, turns := (systemStep s).turns }

/-- The invariant holds after reset. -/
def Obligations.ResetMeetsInvariant : Prop := Inv State.reset

/-- Every step keeps the invariant: memory and Screen stay in canonical form, and `SP` stays even and at most `0x1000`
(R61, R102; that nothing but `CALL`, `RET` and reset moves `SP` is R26). -/
def Obligations.StepKeepsInvariant : Prop :=
  ∀ s t : State, Inv s → step s = .next t → Inv t

/-- Every fault of a step carries an address outside `Mem`, or a word that has no execution together with the `PC` it was
fetched from (R52, R87, R220, R221). -/
def Obligations.StepFaultsAreNamed : Prop :=
  ∀ (s : State) (f : Fault), step s = .fault f →
    (∃ a, f = .addressFault a ∧ (a < 0 ∨ 4095 < a)) ∨
    (∃ op, f = .decodeFault op s.pc ∧
      op = wordOfBytes (s.mem.read s.pc.toNat) (s.mem.read (s.pc.toNat + 1)) ∧
      (IllegalPattern op ∨ (op.toNat < 0x1000 ∧ op ≠ 0x00E0 ∧ op ≠ 0x00EE)))

/-! ### Reset and host (spec/10_state.md R38, spec/50_interfaces.md) -/

/-- What reset leaves (R38, R250): the source's `PC`, `SP`, zeroed memory above the fonts and blank Screen; and, the spec's
own decisions D13, D20 and D22 (notes/assumptions/2.md, 6.md), the zeros of `V`, `I`, `DT`, `ST`, a paused engine with
nothing loaded, and the small font's first and last glyph. -/
def Obligations.ResetLeaves : Prop :=
  let s := State.reset
  s.pc = 0x0200 ∧ s.sp = 0x0052 ∧ (∀ a, 0x64 ≤ a → a ≤ 0xFFF → s.mem.read a = 0) ∧
  (∀ px py, px < 64 → py < 32 → s.screen.getPixel px py = false) ∧
  (∀ k, s.reg k = 0) ∧ s.i = 0 ∧ s.dt = 0 ∧ s.st = 0 ∧ s.run = .paused ∧ s.loaded = false ∧ s.soundOn = false ∧
  [0, 1, 2, 3, 4].map s.mem.read = [0xF0, 0x90, 0x90, 0x90, 0xF0] ∧
  [0x4B, 0x4C, 0x4D, 0x4E, 0x4F].map s.mem.read = [0xF0, 0x80, 0xF0, 0x80, 0x80]

/-- `load` of a ROM that fits, while paused: its bytes from `0x200` upward, `loaded` set, every other cell and everything
else as before, and the answer true; a longer ROM, or a request while running, changes nothing and answers false (R71,
R206; D22, D26, D28, the spec's own decisions; ignoring a request while running is notes/assumptions/9.md). -/
def Obligations.HostLoadResult : Prop :=
  ∀ (s : State) (rom : List Byte),
    (s.run = .paused → rom.length ≤ 3584 → (s.hostLoad rom).2 = true ∧
      (∀ k (h : k < rom.length), (s.hostLoad rom).1.mem.read (0x200 + k) = rom[k]) ∧
      (∀ a, a < 0x200 ∨ 0x200 + rom.length ≤ a → (s.hostLoad rom).1.mem.read a = s.mem.read a) ∧
      (s.hostLoad rom).1 = { s with mem := (s.hostLoad rom).1.mem, loaded := true }) ∧
    (s.run = .running ∨ 3584 < rom.length → s.hostLoad rom = (s, false))

/-- `reset`, from a paused, stopped or faulted engine, gives the block the reset state whatever it held, and forgets the
fault; what the outside presents stays (R205, R250; D13, the spec's own decision). `pause` and `resume` change the run
state alone (R207). `stop` changes the run loop alone, the model's own field `loop`, and ends it; since `resume` leaves
`loop`, it does not start a stopped engine, a point the spec leaves open (R208, N11; DESIGN CHOICE,
notes/assumptions/16.md). -/
def Obligations.HostControl : Prop :=
  ∀ s : State,
    (s.run = .paused ∨ s.loop ≠ .active → s.hostReset = { State.reset with
      pressedKey := s.pressedKey, rnd := s.rnd, inputs := s.inputs, turns := s.turns }) ∧
    s.hostPause = { s with run := .paused } ∧ s.hostResume = { s with run := .running } ∧
    s.hostStop = { s with loop := s.hostStop.loop } ∧ s.hostStop.loop ≠ .active ∧ s.hostStop.cpuEnabled = false

/-- The boot sequence (R251, R252): `reset`, `load`, `resume`, from any engine that is not running, ends with an engine
whose CPU is enabled at `0x200`, the ROM's first two bytes its first opcode. -/
def Obligations.BootRunsTheRom : Prop :=
  ∀ (s : State) (hi lo : Byte) (rest : List Byte), s.run = .paused ∨ s.loop ≠ .active → rest.length ≤ 3582 →
    let t := s.hostCommands [.reset, .load (hi :: lo :: rest), .resume]
    t.cpuEnabled = true ∧ t.pc = 0x200 ∧ t.loaded = true ∧ t.fetch = .ok (wordOfBytes hi lo)

/-- From reset with nothing loaded, `resume` runs into `DecodeFault(0x0000, 0x0200)` (R207). -/
def Obligations.ResumeWithNothingLoadedFaults : Prop :=
  step State.reset.hostResume = .fault (.decodeFault 0x0000 0x0200)

/-- The instruction placed by `withFetchWord` is the one the next step fetches and executes, after reset, for every word that
decodes (R58, R191). Two parts are the model's own: the placing, which stands for the host's `load` and `resume` (DESIGN
CHOICE, notes/assumptions/8.md), and the turn of the environment after the CPU step, `thenTurn` (DESIGN CHOICE,
notes/assumptions/7.md). -/
def Obligations.PlacedWordIsRun : Prop :=
  ∀ (w : Nat) (i : Instr), decodeTableWord 16 w = some i →
    step (State.reset.withFetchWord 16 w) = thenTurn (exec i (State.reset.withFetchWord 16 w))
end

