-- ==== Sys2Proof/Laws/Decode.lean ====
section
/-!
SUPPORT. The fields of the encoded formats (spec/30_encoding.md R81, R82), and the formats put together again from the
fields of a word.
-/

namespace Sys2Proof

theorem nibble_of_toFin (b : BitVec 4) : nibble b.toFin = b := rfl

/-! ### The bits of a format -/

theorem formNnn_bit (c : BitVec 4) (nnn : Addr) (i : Nat) :
    (formNnn c nnn).getLsbD i = if i < 12 then nnn.getLsbD i else c.getLsbD (i - 12) :=
  BitVec.getLsbD_append

theorem formXkk_bit (c : BitVec 4) (x : Reg) (kk : Byte) (i : Nat) :
    (formXkk c x kk).getLsbD i =
      if i < 8 then kk.getLsbD i else if i < 12 then (nibble x).getLsbD (i - 8) else c.getLsbD (i - 12) := by
  refine BitVec.getLsbD_append.trans ?_
  rw [BitVec.getLsbD_append]
  by_cases h : i < 8
  · simp [h]
  · by_cases h' : i < 12
    · rw [if_neg h, if_pos (by omega), if_neg h, if_pos h']
    · rw [if_neg h, if_neg (by omega), if_neg h, if_neg h', Nat.sub_sub]

theorem formXyn_bit (c : BitVec 4) (x y : Reg) (n : Fin 16) (i : Nat) :
    (formXyn c x y n).getLsbD i =
      if i < 4 then (nibble n).getLsbD i else if i < 8 then (nibble y).getLsbD (i - 4)
      else if i < 12 then (nibble x).getLsbD (i - 8) else c.getLsbD (i - 12) := by
  refine BitVec.getLsbD_append.trans ?_
  rw [BitVec.getLsbD_append, BitVec.getLsbD_append]
  by_cases h : i < 4
  · simp [h]
  · by_cases h' : i < 8
    · rw [if_neg h, if_pos (by omega), if_neg h, if_pos h']
    · by_cases h'' : i < 12
      · rw [if_neg h, if_neg (by omega), if_pos (by omega), if_neg h, if_neg h', if_pos h'', Nat.sub_sub]
      · rw [if_neg h, if_neg (by omega), if_neg (by omega), if_neg h, if_neg h', if_neg h'', Nat.sub_sub, Nat.sub_sub]

/-! ### The fields of a format -/

/-- A field whose bits are those of a number is that number. -/
theorem extractLsb'_eq {op : Word} {start w : Nat} {b : BitVec w}
    (h : ∀ i, i < w → op.getLsbD (start + i) = b.getLsbD i) : op.extractLsb' start w = b := by
  apply BitVec.eq_of_getLsbD_eq
  intro i hi
  rw [BitVec.getLsbD_extractLsb', h i hi]
  simp [hi]

@[simp] theorem fieldC_formNnn (c : BitVec 4) (nnn : Addr) : fieldC (formNnn c nnn) = c :=
  extractLsb'_eq fun i hi => by rw [formNnn_bit, if_neg (by omega), Nat.add_sub_cancel_left]

@[simp] theorem fieldNnn_formNnn (c : BitVec 4) (nnn : Addr) : fieldNnn (formNnn c nnn) = nnn :=
  extractLsb'_eq fun i hi => by rw [Nat.zero_add, formNnn_bit, if_pos hi]

@[simp] theorem fieldC_formXkk (c : BitVec 4) (x : Reg) (kk : Byte) : fieldC (formXkk c x kk) = c :=
  extractLsb'_eq fun i hi => by
    rw [formXkk_bit, if_neg (by omega), if_neg (by omega), Nat.add_sub_cancel_left]

@[simp] theorem fieldX_formXkk (c : BitVec 4) (x : Reg) (kk : Byte) : fieldX (formXkk c x kk) = x :=
  congrArg BitVec.toFin (extractLsb'_eq (b := nibble x) fun i hi => by
    rw [formXkk_bit, if_neg (by omega), if_pos (by omega), Nat.add_sub_cancel_left])

@[simp] theorem fieldKk_formXkk (c : BitVec 4) (x : Reg) (kk : Byte) : fieldKk (formXkk c x kk) = kk :=
  extractLsb'_eq fun i hi => by rw [Nat.zero_add, formXkk_bit, if_pos hi]

@[simp] theorem fieldC_formXyn (c : BitVec 4) (x y : Reg) (n : Fin 16) : fieldC (formXyn c x y n) = c :=
  extractLsb'_eq fun i hi => by
    rw [formXyn_bit, if_neg (by omega), if_neg (by omega), if_neg (by omega), Nat.add_sub_cancel_left]

@[simp] theorem fieldX_formXyn (c : BitVec 4) (x y : Reg) (n : Fin 16) : fieldX (formXyn c x y n) = x :=
  congrArg BitVec.toFin (extractLsb'_eq (b := nibble x) fun i hi => by
    rw [formXyn_bit, if_neg (by omega), if_neg (by omega), if_pos (by omega), Nat.add_sub_cancel_left])

@[simp] theorem fieldY_formXyn (c : BitVec 4) (x y : Reg) (n : Fin 16) : fieldY (formXyn c x y n) = y :=
  congrArg BitVec.toFin (extractLsb'_eq (b := nibble y) fun i hi => by
    rw [formXyn_bit, if_neg (by omega), if_pos (by omega), Nat.add_sub_cancel_left])

@[simp] theorem fieldN_formXyn (c : BitVec 4) (x y : Reg) (n : Fin 16) : fieldN (formXyn c x y n) = n :=
  congrArg BitVec.toFin (extractLsb'_eq (b := nibble n) fun i hi => by
    rw [Nat.zero_add, formXyn_bit, if_pos hi])

/-! ### A word from its fields -/

theorem fieldC_bit (op : Word) (i : Nat) (h : i < 4) : (fieldC op).getLsbD i = op.getLsbD (12 + i) := by
  simp [fieldC, h]

theorem fieldNnn_bit (op : Word) (i : Nat) (h : i < 12) : (fieldNnn op).getLsbD i = op.getLsbD i := by
  simp [fieldNnn, h]

theorem fieldKk_bit (op : Word) (i : Nat) (h : i < 8) : (fieldKk op).getLsbD i = op.getLsbD i := by
  simp [fieldKk, h]

theorem fieldX_bit (op : Word) (i : Nat) (h : i < 4) : (nibble (fieldX op)).getLsbD i = op.getLsbD (8 + i) := by
  rw [fieldX, nibble_of_toFin, BitVec.getLsbD_extractLsb']
  simp [h]

theorem fieldY_bit (op : Word) (i : Nat) (h : i < 4) : (nibble (fieldY op)).getLsbD i = op.getLsbD (4 + i) := by
  rw [fieldY, nibble_of_toFin, BitVec.getLsbD_extractLsb']
  simp [h]

theorem fieldN_bit (op : Word) (i : Nat) (h : i < 4) : (nibble (fieldN op)).getLsbD i = op.getLsbD i := by
  rw [fieldN, nibble_of_toFin, BitVec.getLsbD_extractLsb']
  simp [h]

/-- A word is its command nibble and its `nnn`. -/
theorem formNnn_fields (op : Word) : formNnn (fieldC op) (fieldNnn op) = op := by
  apply BitVec.eq_of_getLsbD_eq
  intro i hi
  rw [formNnn_bit]
  split
  · rw [fieldNnn_bit _ _ ‹_›]
  · rw [fieldC_bit _ _ (by omega), Nat.add_sub_cancel' (by omega)]

/-- A word is its command nibble, its `x` and its `kk`. -/
theorem formXkk_fields (op : Word) : formXkk (fieldC op) (fieldX op) (fieldKk op) = op := by
  apply BitVec.eq_of_getLsbD_eq
  intro i hi
  rw [formXkk_bit]
  split
  · rw [fieldKk_bit _ _ ‹_›]
  · split
    · rw [fieldX_bit _ _ (by omega), Nat.add_sub_cancel' (by omega)]
    · rw [fieldC_bit _ _ (by omega), Nat.add_sub_cancel' (by omega)]

/-- A word is its four nibbles. -/
theorem formXyn_fields (op : Word) : formXyn (fieldC op) (fieldX op) (fieldY op) (fieldN op) = op := by
  apply BitVec.eq_of_getLsbD_eq
  intro i hi
  rw [formXyn_bit]
  split
  · rw [fieldN_bit _ _ ‹_›]
  · split
    · rw [fieldY_bit _ _ (by omega), Nat.add_sub_cancel' (by omega)]
    · split
      · rw [fieldX_bit _ _ (by omega), Nat.add_sub_cancel' (by omega)]
      · rw [fieldC_bit _ _ (by omega), Nat.add_sub_cancel' (by omega)]

/-- Most significant byte first, and back (R57). -/
theorem wordOfBytes_bytesOfWord (w : Word) : wordOfBytes (w.extractLsb' 8 8) (w.extractLsb' 0 8) = w := by
  apply BitVec.eq_of_getLsbD_eq
  intro i hi
  refine BitVec.getLsbD_append.trans ?_
  split
  · simp [*]
  · rw [BitVec.getLsbD_extractLsb', Nat.add_sub_cancel' (by omega)]
    simp; omega

end Sys2Proof
end

