-- ==== Sys2Proof/Laws/Memory.lean ====
section
/-!
SUPPORT. The sparse memory: a read after a write, and that a write keeps the canonical form.
-/

namespace Sys2Proof.Machine

theorem Memory.lookup_insert (m : Memory) (a : Nat) (b : Byte) (a' : Nat) :
    (Memory.insert a b m).lookup a' = if a' = a then some b else m.lookup a' := by
  induction m with
  | nil => simp [Memory.insert, Memory.lookup, eq_comm]
  | cons c rest ih =>
    simp only [Memory.insert]
    split
    · simp [Memory.lookup, eq_comm]
    · split
      · rename_i h; subst h
        by_cases e : a' = c.1 <;> simp [Memory.lookup, e, eq_comm]
      · simp only [Memory.lookup, ih]
        by_cases e : a' = a
        · subst e; simp only [if_true]; rw [if_neg]; rename_i h; exact fun x => h x.symm
        · simp [e]

theorem Memory.lookup_filter (m : Memory) (a a' : Nat) :
    Memory.lookup (m.filter (fun c => c.1 ≠ a)) a' = if a' = a then none else m.lookup a' := by
  induction m with
  | nil => simp [Memory.lookup]
  | cons c rest ih =>
    by_cases h : c.1 = a
    · rw [List.filter_cons_of_neg (by simp [h]), ih]
      by_cases e : a' = a
      · simp [e]
      · have : ¬ c.1 = a' := by rw [h]; exact fun x => e x.symm
        simp [e, Memory.lookup, this]
    · rw [List.filter_cons_of_pos (by simp [h])]
      simp only [Memory.lookup, ih]
      by_cases e : a' = a
      · subst e; simp [h]
      · simp [e]

/-- A read gives the byte last written to its address, and a write leaves every other address alone (R55, R65). -/
@[simp] theorem Memory.read_write (m : Memory) (a : Nat) (b : Byte) (a' : Nat) :
    (m.write a b).read a' = if a' = a then b else m.read a' := by
  unfold Memory.write Memory.read
  by_cases h : resetByte a = some b
  · rw [if_pos h, Memory.lookup_filter]
    by_cases e : a' = a
    · subst e; simp [unlisted, h]
    · simp [e]
  · rw [if_neg h, Memory.lookup_insert]
    by_cases e : a' = a <;> simp [e]

theorem Memory.mem_insert {m : Memory} {a : Nat} {b : Byte} {c : Host.Cell}
    (h : c ∈ Memory.insert a b m) : c = (a, b) ∨ c ∈ m := by
  induction m with
  | nil => simpa [Memory.insert] using h
  | cons d rest ih =>
    simp only [Memory.insert] at h
    split at h
    · simpa using h
    · split at h
      · rcases List.mem_cons.1 h with h | h
        · exact .inl h
        · exact .inr (List.mem_cons_of_mem _ h)
      · rcases List.mem_cons.1 h with h | h
        · exact .inr (h ▸ List.mem_cons_self)
        · exact (ih h).imp id (List.mem_cons_of_mem _)

theorem Memory.insert_sorted {m : Memory} (a : Nat) (b : Byte)
    (h : m.Pairwise (fun c d => c.1 < d.1)) :
    (Memory.insert a b m).Pairwise (fun c d => c.1 < d.1) := by
  induction m with
  | nil => simp [Memory.insert]
  | cons d rest ih =>
    obtain ⟨hd, hr⟩ := List.pairwise_cons.1 h
    simp only [Memory.insert]
    split
    · rename_i lt
      refine List.pairwise_cons.2 ⟨?_, h⟩
      intro c hc
      rcases List.mem_cons.1 hc with rfl | hc
      · exact lt
      · exact lt_trans lt (hd c hc)
    · split
      · rename_i eq
        exact List.pairwise_cons.2 ⟨fun c hc => by simpa [eq] using hd c hc, hr⟩
      · rename_i nlt neq
        refine List.pairwise_cons.2 ⟨fun c hc => ?_, ih hr⟩
        rcases Memory.mem_insert hc with rfl | hc
        · show d.1 < a
          omega
        · exact hd c hc

/-- A write to an address of `Mem` keeps the canonical form. -/
theorem Memory.write_wf {m : Memory} {a : Nat} (b : Byte) (h : m.wf) (ha : a < Config.memSize) : (m.write a b).wf := by
  obtain ⟨hs, hc⟩ := h
  unfold Memory.write
  split
  · exact ⟨hs.filter _, fun c hm => hc c (List.mem_filter.1 hm).1⟩
  · rename_i hb
    refine ⟨Memory.insert_sorted a b hs, fun c hm => ?_⟩
    rcases Memory.mem_insert hm with rfl | hm
    · exact ⟨ha, hb⟩
    · exact hc c hm

/-- After a list is written from `a` upward, its cells hold its bytes and every other cell is as before. -/
theorem Memory.read_writeList (m : Memory) (a : Nat) (bs : List Byte) (a' : Nat) :
    (m.writeList a bs).read a' = if h : a ≤ a' ∧ a' < a + bs.length then bs[a' - a]'(by omega) else m.read a' := by
  induction bs generalizing m a with
  | nil => rw [dif_neg (by simp)]; rfl
  | cons b rest ih =>
    rw [Memory.writeList, ih]
    by_cases e : a' = a
    · subst e
      rw [dif_neg (by omega), dif_pos (by simp)]
      simp
    · by_cases h : a + 1 ≤ a' ∧ a' < a + 1 + rest.length
      · rw [dif_pos h, dif_pos (by simp only [List.length_cons]; omega)]
        have : a' - a = (a' - (a + 1)) + 1 := by omega
        simp [this]
      · rw [dif_neg h, dif_neg (by simp only [List.length_cons]; omega)]
        simp [e]

/-- Writing a list inside `Mem` keeps the canonical form. -/
theorem Memory.writeList_wf {m : Memory} {a : Nat} {bs : List Byte} (h : m.wf)
    (ha : a + bs.length ≤ Config.memSize) : (m.writeList a bs).wf := by
  induction bs generalizing m a with
  | nil => exact h
  | cons b rest ih =>
    simp only [List.length_cons] at ha
    exact ih (Memory.write_wf b h (by omega)) (by omega)

end Sys2Proof.Machine
end

