-- ==== Sys2Proof/Laws/Screen.lean ====
section
/-!
SUPPORT. The Screen: what a pixel reads as after a write, and that the operations keep the canonical form.
-/

namespace Sys2Proof.Machine

theorem Screen.mem_insert (p q : Nat) (scr : Screen) : q ∈ Screen.insert p scr ↔ q = p ∨ q ∈ scr := by
  induction scr with
  | nil => simp [Screen.insert]
  | cons r rest ih =>
    simp only [Screen.insert]
    split
    · simp
    · split
      · rename_i h; subst h; simp
      · simp only [List.mem_cons, ih]; tauto

theorem pixelIndex_inj {px py px' py' : Nat} (h : px < Config.screenW) (h' : px' < Config.screenW) :
    pixelIndex px' py' = pixelIndex px py ↔ px' = px ∧ py' = py := by
  unfold pixelIndex Config.screenW at *
  omega

/-- A pixel reads as last set, and setting one changes no other (R198). -/
theorem Screen.getPixel_setPixel (scr : Screen) {px py px' py' : Nat} (on : Bool)
    (h : px < Config.screenW) (h' : px' < Config.screenW) :
    (scr.setPixel px py on).getPixel px' py' = if px' = px ∧ py' = py then on else scr.getPixel px' py' := by
  unfold Screen.setPixel Screen.getPixel
  by_cases e : px' = px ∧ py' = py
  · obtain ⟨rfl, rfl⟩ := e
    cases on <;> simp [Screen.mem_insert]
  · have ne : ¬ pixelIndex px' py' = pixelIndex px py := fun x => e ((pixelIndex_inj h h').1 x)
    cases on <;> simp [Screen.mem_insert, e, ne]

/-- A cleared screen has every pixel off (R197). -/
@[simp] theorem Screen.getPixel_clear (px py : Nat) : Screen.clear.getPixel px py = false := by
  simp [Screen.getPixel, Screen.clear]

theorem Screen.clear_wf : Screen.clear.wf := ⟨List.Pairwise.nil, fun _ h => absurd h List.not_mem_nil⟩

theorem Screen.insert_sorted {scr : Screen} (p : Nat) (h : scr.Pairwise (· < ·)) :
    (Screen.insert p scr).Pairwise (· < ·) := by
  induction scr with
  | nil => simp [Screen.insert]
  | cons q rest ih =>
    obtain ⟨hq, hr⟩ := List.pairwise_cons.1 h
    simp only [Screen.insert]
    split
    · rename_i lt
      refine List.pairwise_cons.2 ⟨fun r hr' => ?_, h⟩
      rcases List.mem_cons.1 hr' with rfl | hr'
      · exact lt
      · exact lt_trans lt (hq r hr')
    · split
      · exact h
      · refine List.pairwise_cons.2 ⟨fun r hr' => ?_, ih hr⟩
        rcases (Screen.mem_insert p r rest).1 hr' with rfl | hr'
        · omega
        · exact hq r hr'

/-- Setting a pixel of the grid keeps the canonical form. -/
theorem Screen.setPixel_wf {scr : Screen} {px py : Nat} (on : Bool) (h : scr.wf)
    (hx : px < Config.screenW) (hy : py < Config.screenH) : (scr.setPixel px py on).wf := by
  obtain ⟨hs, hb⟩ := h
  unfold Screen.setPixel
  cases on with
  | false => exact ⟨hs.filter _, fun p hp => hb p (List.mem_filter.1 hp).1⟩
  | true =>
    refine ⟨Screen.insert_sorted _ hs, fun p hp => ?_⟩
    rcases (Screen.mem_insert _ _ _).1 hp with rfl | hp
    · unfold pixelIndex Config.screenW Config.screenH at *
      omega
    · exact hb p hp

theorem screenW_pos : 0 < Config.screenW := by decide
theorem screenH_pos : 0 < Config.screenH := by decide

theorem drawPixel_wf (x0 y0 row col : Nat) (b : Byte) {acc : Screen × Bool} (h : acc.1.wf) :
    (drawPixel x0 y0 row col b acc).1.wf := by
  unfold drawPixel
  split
  · exact Screen.setPixel_wf _ h (Nat.mod_lt _ screenW_pos) (Nat.mod_lt _ screenH_pos)
  · exact h

theorem drawRow_wf (x0 y0 row : Nat) (b : Byte) {acc : Screen × Bool} (h : acc.1.wf) :
    (drawRow x0 y0 row b acc).1.wf := by
  unfold drawRow
  generalize [0, 1, 2, 3, 4, 5, 6, 7] = cols
  induction cols generalizing acc with
  | nil => exact h
  | cons c rest ih => exact ih (drawPixel_wf x0 y0 row c b h)

/-- A blit keeps the canonical form. -/
theorem drawSprite_wf (x0 y0 : Nat) (bs : List Byte) (row : Nat) {acc : Screen × Bool} (h : acc.1.wf) :
    (drawSprite x0 y0 bs row acc).1.wf := by
  induction bs generalizing row acc with
  | nil => exact h
  | cons b rest ih => exact ih (row + 1) (drawRow_wf x0 y0 row b h)

/-! ### A blit as the flips of the sprite's pixels, one by one -/

/-- XOR one pixel with 1 and note whether it was on (R171). -/
def flipPixel (acc : Screen × Bool) (p : Nat × Nat) : Screen × Bool :=
  (acc.1.setPixel p.1 p.2 (!acc.1.getPixel p.1 p.2), acc.2 || acc.1.getPixel p.1 p.2)

/-- The pixels the 1 bits of one sprite row fall on, left to right. -/
def rowPixels (x0 y0 row : Nat) (b : Byte) : List (Nat × Nat) :=
  ([0, 1, 2, 3, 4, 5, 6, 7].filter (fun col => b.getLsbD (7 - col))).map
    (fun col => ((x0 + col) % Config.screenW, (y0 + row) % Config.screenH))

/-- The pixels the 1 bits of the rows from `row` on fall on. -/
def spritePixels (x0 y0 : Nat) : List Byte → Nat → List (Nat × Nat)
  | [], _ => []
  | b :: rest, row => rowPixels x0 y0 row b ++ spritePixels x0 y0 rest (row + 1)

theorem drawRow_eq_flips (x0 y0 row : Nat) (b : Byte) (acc : Screen × Bool) :
    drawRow x0 y0 row b acc = (rowPixels x0 y0 row b).foldl flipPixel acc := by
  unfold drawRow rowPixels
  generalize [0, 1, 2, 3, 4, 5, 6, 7] = cols
  induction cols generalizing acc with
  | nil => rfl
  | cons c rest ih =>
    by_cases h : b.getLsbD (7 - c)
    · rw [List.foldl_cons, ih]
      simp [drawPixel, h, flipPixel]
    · rw [List.foldl_cons, ih]
      simp [drawPixel, h]

/-- A blit is the flips of the sprite's pixels, in order (R171). -/
theorem drawSprite_eq_flips (x0 y0 : Nat) (bs : List Byte) (row : Nat) (acc : Screen × Bool) :
    drawSprite x0 y0 bs row acc = (spritePixels x0 y0 bs row).foldl flipPixel acc := by
  induction bs generalizing row acc with
  | nil => rfl
  | cons b rest ih => rw [drawSprite, ih, spritePixels, List.foldl_append, drawRow_eq_flips]

/-- Which pixels a sprite falls on: some 1 bit's, both coordinates reduced. -/
theorem mem_spritePixels {x0 y0 : Nat} {bs : List Byte} {row : Nat} {p : Nat × Nat} :
    p ∈ spritePixels x0 y0 bs row ↔
      ∃ (r : Nat) (h : r < bs.length) (col : Nat), col < 8 ∧ bs[r].getLsbD (7 - col) = true ∧
        p = ((x0 + col) % Config.screenW, (y0 + (row + r)) % Config.screenH) := by
  induction bs generalizing row with
  | nil => simp [spritePixels]
  | cons b rest ih =>
    rw [spritePixels, List.mem_append, ih]
    constructor
    · rintro (h | ⟨r, hr, col, hc, hb, rfl⟩)
      · simp only [rowPixels, List.mem_map, List.mem_filter] at h
        obtain ⟨col, ⟨hc, hb⟩, rfl⟩ := h
        refine ⟨0, by simp, col, ?_, hb, rfl⟩
        simp at hc; omega
      · refine ⟨r + 1, by simpa using hr, col, hc, by simpa using hb, ?_⟩
        rw [show row + 1 + r = row + (r + 1) by omega]
    · rintro ⟨r, hr, col, hc, hb, rfl⟩
      cases r with
      | zero =>
        left
        simp only [rowPixels, List.mem_map, List.mem_filter]
        refine ⟨col, ⟨?_, hb⟩, rfl⟩
        simp; omega
      | succ r =>
        right
        refine ⟨r, by simpa using hr, col, hc, by simpa using hb, ?_⟩
        rw [show row + 1 + r = row + (r + 1) by omega]

theorem rowPixels_nodup (x0 y0 row : Nat) (b : Byte) : (rowPixels x0 y0 row b).Nodup := by
  unfold rowPixels
  refine List.Nodup.map_on ?_ (List.Nodup.filter _ (by decide))
  intro c hc d hd e
  have hc := (List.mem_filter.1 hc).1
  have hd := (List.mem_filter.1 hd).1
  simp at hc hd
  simp only [Prod.mk.injEq, Config.screenW] at e
  omega

/-- No pixel is visited twice in one blit of at most `SCREEN_H` rows (R171 case 5). -/
theorem spritePixels_nodup {x0 y0 : Nat} {bs : List Byte} {row : Nat} (h : bs.length ≤ Config.screenH) :
    (spritePixels x0 y0 bs row).Nodup := by
  induction bs generalizing row with
  | nil => exact List.nodup_nil
  | cons b rest ih =>
    simp only [List.length_cons] at h
    rw [spritePixels]
    refine List.nodup_append.2 ⟨rowPixels_nodup x0 y0 row b, ih (by omega), ?_⟩
    intro p hp q hq e
    subst e
    simp only [rowPixels, List.mem_map] at hp
    obtain ⟨c, -, rfl⟩ := hp
    obtain ⟨r, hr, col, -, -, e⟩ := mem_spritePixels.1 hq
    simp only [Prod.mk.injEq, Config.screenH] at e h
    omega

/-- Flipping a list of distinct grid pixels: a pixel changes exactly when it is in the list, and a collision is noted
exactly when one of them was on. -/
theorem foldl_flipPixel (ps : List (Nat × Nat)) (hn : ps.Nodup) (hx : ∀ p ∈ ps, p.1 < Config.screenW)
    (acc : Screen × Bool) :
    (∀ px py, px < Config.screenW →
      (ps.foldl flipPixel acc).1.getPixel px py = xor (acc.1.getPixel px py) (decide ((px, py) ∈ ps))) ∧
    (ps.foldl flipPixel acc).2 = (acc.2 || decide (∃ p ∈ ps, acc.1.getPixel p.1 p.2 = true)) := by
  induction ps generalizing acc with
  | nil => simp
  | cons p rest ih =>
    obtain ⟨hp, hn⟩ := List.nodup_cons.1 hn
    have hp1 := hx p List.mem_cons_self
    obtain ⟨h1, h2⟩ := ih hn (fun q hq => hx q (List.mem_cons_of_mem _ hq)) (flipPixel acc p)
    have get : ∀ px py, px < Config.screenW → (flipPixel acc p).1.getPixel px py =
        if px = p.1 ∧ py = p.2 then !acc.1.getPixel p.1 p.2 else acc.1.getPixel px py := fun px py h =>
      Screen.getPixel_setPixel _ _ hp1 h
    constructor
    · intro px py h
      rw [List.foldl_cons, h1 px py h, get px py h]
      by_cases e : px = p.1 ∧ py = p.2
      · have e' : (px, py) = p := by rw [e.1, e.2]
        rw [if_pos e, e', e.1, e.2]
        simp [hp]
      · have e' : ¬ (px, py) = p := fun x => e (by rw [← x]; exact ⟨rfl, rfl⟩)
        rw [if_neg e]
        simp [e']
    · rw [List.foldl_cons, h2]
      have : (∃ q ∈ rest, (flipPixel acc p).1.getPixel q.1 q.2 = true) ↔
          ∃ q ∈ rest, acc.1.getPixel q.1 q.2 = true := by
        refine exists_congr fun q => and_congr_right fun hq => ?_
        rw [get _ _ (hx q (List.mem_cons_of_mem _ hq)), if_neg]
        rintro ⟨a, b⟩
        exact hp (by rw [← Prod.ext a b]; exact hq)
      simp only [this, List.mem_cons, exists_eq_or_imp]
      simp [flipPixel, Bool.or_assoc]

/-- Two screens in canonical form that agree on every pixel of the grid are equal. -/
theorem Screen.ext_of_getPixel {a b : Screen} (ha : a.wf) (hb : b.wf)
    (h : ∀ px py, px < Config.screenW → py < Config.screenH → a.getPixel px py = b.getPixel px py) : a = b := by
  have mem : ∀ p, p ∈ a ↔ p ∈ b := by
    intro p
    by_cases hp : p < Config.screenW * Config.screenH
    · have e : pixelIndex (p % Config.screenW) (p / Config.screenW) = p := by
        unfold pixelIndex; rw [mul_comm]; exact Nat.div_add_mod p _
      have := h (p % Config.screenW) (p / Config.screenW) (Nat.mod_lt _ screenW_pos) (Nat.div_lt_of_lt_mul hp)
      unfold Screen.getPixel at this
      rw [e] at this
      simpa using this
    · exact ⟨fun x => absurd (ha.2 p x) hp, fun x => absurd (hb.2 p x) hp⟩
  exact List.Perm.eq_of_pairwise (le := (· < ·)) (fun x y _ _ h1 h2 => absurd h1 (lt_asymm h2)) ha.1 hb.1
    ((List.perm_ext_iff_of_nodup (ha.1.imp (fun h => ne_of_lt h)) (hb.1.imp (fun h => ne_of_lt h))).2 mem)

end Sys2Proof.Machine
end

