-- ==== Sys2Proof/Laws/Environment.lean ====
section
/-!
SUPPORT. The agents beside the CPU: many ticks are single ticks one after the other, and each host operation and each
turn keeps the invariant.
-/

namespace Sys2Proof.Machine

open Sys2Proof.Safety

theorem tickDown_toNat (t : Byte) : (tickDown t).toNat = t.toNat - 1 := by
  unfold tickDown
  split
  · rename_i h; simp [h]
  · rename_i h
    have : t.toNat ≠ 0 := fun e => h (BitVec.eq_of_toNat_eq e)
    rw [BitVec.toNat_sub_of_le]
    · rfl
    · show 1 ≤ t.toNat
      omega

theorem countDown_toNat (t : Byte) (n : Nat) : (countDown t n).toNat = t.toNat - n := by
  unfold countDown
  split
  · rename_i h; simp [h]
  · rw [BitVec.toNat_ofNat, Nat.mod_eq_of_lt (by have := t.isLt; omega)]

theorem countDown_succ (t : Byte) (n : Nat) : countDown t (n + 1) = tickDown (countDown t n) := by
  apply BitVec.eq_of_toNat_eq
  rw [tickDown_toNat, countDown_toNat, countDown_toNat, Nat.sub_sub]

/-- `n` ticks at once are `n` single ticks (R192, R193). -/
theorem State.timerTicks_eq_iterate (s : State) (n : Nat) : s.timerTicks n = State.timerTick^[n] s := by
  induction n with
  | zero =>
    have h : ∀ t : Byte, countDown t 0 = t := fun t => BitVec.eq_of_toNat_eq (by rw [countDown_toNat]; rfl)
    simp [State.timerTicks, h]
  | succ n ih =>
    rw [Function.iterate_succ_apply', ← ih]
    simp [State.timerTicks, State.timerTick, countDown_succ]

theorem State.hostCommands_eq_foldl (s : State) (cs : List HostCommand) :
    s.hostCommands cs = cs.foldl (fun t c => t.hostCommand c) s := by
  induction cs generalizing s with
  | nil => rfl
  | cons c rest ih => exact ih _

/-- A host operation keeps the invariant. -/
theorem State.hostCommand_inv {s : State} (c : HostCommand) (h : Inv s) : Inv (s.hostCommand c) := by
  cases c with
  | reset =>
    show Inv s.hostReset
    unfold State.hostReset
    split
    · exact h
    · exact ⟨⟨List.Pairwise.nil, fun _ hm => absurd hm List.not_mem_nil⟩,
        ⟨List.Pairwise.nil, fun _ hm => absurd hm List.not_mem_nil⟩,
        (by decide : resetSp.toNat % 2 = 0), (by decide : resetSp.toNat ≤ 0x1000)⟩
  | load rom =>
    show Inv (s.hostLoad rom).1
    unfold State.hostLoad
    split
    · rename_i hc
      refine ⟨Memory.writeList_wf h.1 ?_, h.2⟩
      have := hc.2
      simp only [Config.romBase, Config.romMax, Config.memSize] at *
      omega
    · exact h
  | pause => exact h
  | resume => exact h
  | stop =>
    show Inv s.hostStop
    unfold State.hostStop
    split <;> exact h

theorem State.hostCommands_inv {s : State} (cs : List HostCommand) (h : Inv s) : Inv (s.hostCommands cs) := by
  induction cs generalizing s with
  | nil => exact h
  | cons c rest ih => exact ih (State.hostCommand_inv c h)

/-- A turn of the environment keeps the invariant. -/
theorem State.turn_inv {s : State} (h : Inv s) : Inv s.turn := by
  unfold State.turn
  split
  · exact State.hostCommands_inv _ h
  · exact h

/-- A turn with no host operation changes only the timers and what the environment presents. -/
theorem State.turn_frame (s : State) (h : ∀ u rest, s.inputs = u :: rest → u.host = []) :
    s.turn = { s with dt := s.turn.dt, st := s.turn.st, pressedKey := s.turn.pressedKey, rnd := s.turn.rnd,
                      inputs := s.turn.inputs, turns := s.turn.turns } := by
  unfold State.turn
  split
  · rename_i u rest e
    rw [h u rest e]
    rfl
  · rfl

end Sys2Proof.Machine
end

