-- ==== Sys2Proof/Laws/State.lean ====
section
/-!
SUPPORT. One lemma per field per update of the state, so that no proof unfolds a record update.
-/

namespace Sys2Proof.Machine

variable (s : State)

/-! ### `setReg` -/

@[simp] theorem State.setReg_v (k : Reg) (b : Byte) : (s.setReg k b).v = s.v.set k b := rfl
@[simp] theorem State.setReg_i (k : Reg) (b : Byte) : (s.setReg k b).i = s.i := rfl
@[simp] theorem State.setReg_pc (k : Reg) (b : Byte) : (s.setReg k b).pc = s.pc := rfl
@[simp] theorem State.setReg_sp (k : Reg) (b : Byte) : (s.setReg k b).sp = s.sp := rfl
@[simp] theorem State.setReg_dt (k : Reg) (b : Byte) : (s.setReg k b).dt = s.dt := rfl
@[simp] theorem State.setReg_st (k : Reg) (b : Byte) : (s.setReg k b).st = s.st := rfl
@[simp] theorem State.setReg_mem (k : Reg) (b : Byte) : (s.setReg k b).mem = s.mem := rfl
@[simp] theorem State.setReg_loaded (k : Reg) (b : Byte) : (s.setReg k b).loaded = s.loaded := rfl
@[simp] theorem State.setReg_run (k : Reg) (b : Byte) : (s.setReg k b).run = s.run := rfl
@[simp] theorem State.setReg_screen (k : Reg) (b : Byte) : (s.setReg k b).screen = s.screen := rfl
@[simp] theorem State.setReg_pressedKey (k : Reg) (b : Byte) : (s.setReg k b).pressedKey = s.pressedKey := rfl
@[simp] theorem State.setReg_loop (k : Reg) (b : Byte) : (s.setReg k b).loop = s.loop := rfl
@[simp] theorem State.setReg_rnd (k : Reg) (b : Byte) : (s.setReg k b).rnd = s.rnd := rfl
@[simp] theorem State.setReg_inputs (k : Reg) (b : Byte) : (s.setReg k b).inputs = s.inputs := rfl
@[simp] theorem State.setReg_turns (k : Reg) (b : Byte) : (s.setReg k b).turns = s.turns := rfl

/-- A register reads as the last byte written to it, and writing one changes no other (R21). -/
@[simp] theorem State.setReg_reg (k : Reg) (b : Byte) (j : Reg) :
    (s.setReg k b).reg j = if j = k then b else s.reg j := by
  unfold State.setReg State.reg
  simp only [Fin.getElem_fin, Vector.getElem_set]
  by_cases h : j = k
  · simp [h]
  · have : ¬ k.val = j.val := fun e => h (Fin.ext e.symm)
    simp [h, this]

/-! ### `setI` -/

@[simp] theorem State.setI_v (w : Word) : (s.setI w).v = s.v := rfl
@[simp] theorem State.setI_i (w : Word) : (s.setI w).i = w := rfl
@[simp] theorem State.setI_pc (w : Word) : (s.setI w).pc = s.pc := rfl
@[simp] theorem State.setI_sp (w : Word) : (s.setI w).sp = s.sp := rfl
@[simp] theorem State.setI_dt (w : Word) : (s.setI w).dt = s.dt := rfl
@[simp] theorem State.setI_st (w : Word) : (s.setI w).st = s.st := rfl
@[simp] theorem State.setI_mem (w : Word) : (s.setI w).mem = s.mem := rfl
@[simp] theorem State.setI_loaded (w : Word) : (s.setI w).loaded = s.loaded := rfl
@[simp] theorem State.setI_run (w : Word) : (s.setI w).run = s.run := rfl
@[simp] theorem State.setI_screen (w : Word) : (s.setI w).screen = s.screen := rfl
@[simp] theorem State.setI_pressedKey (w : Word) : (s.setI w).pressedKey = s.pressedKey := rfl
@[simp] theorem State.setI_loop (w : Word) : (s.setI w).loop = s.loop := rfl
@[simp] theorem State.setI_rnd (w : Word) : (s.setI w).rnd = s.rnd := rfl
@[simp] theorem State.setI_inputs (w : Word) : (s.setI w).inputs = s.inputs := rfl
@[simp] theorem State.setI_turns (w : Word) : (s.setI w).turns = s.turns := rfl
@[simp] theorem State.setI_reg (w : Word) (j : Reg) : (s.setI w).reg j = s.reg j := rfl

/-! ### `setPc` -/

@[simp] theorem State.setPc_v (w : Word) : (s.setPc w).v = s.v := rfl
@[simp] theorem State.setPc_i (w : Word) : (s.setPc w).i = s.i := rfl
@[simp] theorem State.setPc_pc (w : Word) : (s.setPc w).pc = w := rfl
@[simp] theorem State.setPc_sp (w : Word) : (s.setPc w).sp = s.sp := rfl
@[simp] theorem State.setPc_dt (w : Word) : (s.setPc w).dt = s.dt := rfl
@[simp] theorem State.setPc_st (w : Word) : (s.setPc w).st = s.st := rfl
@[simp] theorem State.setPc_mem (w : Word) : (s.setPc w).mem = s.mem := rfl
@[simp] theorem State.setPc_loaded (w : Word) : (s.setPc w).loaded = s.loaded := rfl
@[simp] theorem State.setPc_run (w : Word) : (s.setPc w).run = s.run := rfl
@[simp] theorem State.setPc_screen (w : Word) : (s.setPc w).screen = s.screen := rfl
@[simp] theorem State.setPc_pressedKey (w : Word) : (s.setPc w).pressedKey = s.pressedKey := rfl
@[simp] theorem State.setPc_loop (w : Word) : (s.setPc w).loop = s.loop := rfl
@[simp] theorem State.setPc_rnd (w : Word) : (s.setPc w).rnd = s.rnd := rfl
@[simp] theorem State.setPc_inputs (w : Word) : (s.setPc w).inputs = s.inputs := rfl
@[simp] theorem State.setPc_turns (w : Word) : (s.setPc w).turns = s.turns := rfl
@[simp] theorem State.setPc_reg (w : Word) (j : Reg) : (s.setPc w).reg j = s.reg j := rfl

/-! ### `setSp` -/

@[simp] theorem State.setSp_v (w : Word) : (s.setSp w).v = s.v := rfl
@[simp] theorem State.setSp_i (w : Word) : (s.setSp w).i = s.i := rfl
@[simp] theorem State.setSp_pc (w : Word) : (s.setSp w).pc = s.pc := rfl
@[simp] theorem State.setSp_sp (w : Word) : (s.setSp w).sp = w := rfl
@[simp] theorem State.setSp_dt (w : Word) : (s.setSp w).dt = s.dt := rfl
@[simp] theorem State.setSp_st (w : Word) : (s.setSp w).st = s.st := rfl
@[simp] theorem State.setSp_mem (w : Word) : (s.setSp w).mem = s.mem := rfl
@[simp] theorem State.setSp_loaded (w : Word) : (s.setSp w).loaded = s.loaded := rfl
@[simp] theorem State.setSp_run (w : Word) : (s.setSp w).run = s.run := rfl
@[simp] theorem State.setSp_screen (w : Word) : (s.setSp w).screen = s.screen := rfl
@[simp] theorem State.setSp_pressedKey (w : Word) : (s.setSp w).pressedKey = s.pressedKey := rfl
@[simp] theorem State.setSp_loop (w : Word) : (s.setSp w).loop = s.loop := rfl
@[simp] theorem State.setSp_rnd (w : Word) : (s.setSp w).rnd = s.rnd := rfl
@[simp] theorem State.setSp_inputs (w : Word) : (s.setSp w).inputs = s.inputs := rfl
@[simp] theorem State.setSp_turns (w : Word) : (s.setSp w).turns = s.turns := rfl
@[simp] theorem State.setSp_reg (w : Word) (j : Reg) : (s.setSp w).reg j = s.reg j := rfl

/-! ### `setDt` -/

@[simp] theorem State.setDt_v (b : Byte) : (s.setDt b).v = s.v := rfl
@[simp] theorem State.setDt_i (b : Byte) : (s.setDt b).i = s.i := rfl
@[simp] theorem State.setDt_pc (b : Byte) : (s.setDt b).pc = s.pc := rfl
@[simp] theorem State.setDt_sp (b : Byte) : (s.setDt b).sp = s.sp := rfl
@[simp] theorem State.setDt_dt (b : Byte) : (s.setDt b).dt = b := rfl
@[simp] theorem State.setDt_st (b : Byte) : (s.setDt b).st = s.st := rfl
@[simp] theorem State.setDt_mem (b : Byte) : (s.setDt b).mem = s.mem := rfl
@[simp] theorem State.setDt_loaded (b : Byte) : (s.setDt b).loaded = s.loaded := rfl
@[simp] theorem State.setDt_run (b : Byte) : (s.setDt b).run = s.run := rfl
@[simp] theorem State.setDt_screen (b : Byte) : (s.setDt b).screen = s.screen := rfl
@[simp] theorem State.setDt_pressedKey (b : Byte) : (s.setDt b).pressedKey = s.pressedKey := rfl
@[simp] theorem State.setDt_loop (b : Byte) : (s.setDt b).loop = s.loop := rfl
@[simp] theorem State.setDt_rnd (b : Byte) : (s.setDt b).rnd = s.rnd := rfl
@[simp] theorem State.setDt_inputs (b : Byte) : (s.setDt b).inputs = s.inputs := rfl
@[simp] theorem State.setDt_turns (b : Byte) : (s.setDt b).turns = s.turns := rfl
@[simp] theorem State.setDt_reg (b : Byte) (j : Reg) : (s.setDt b).reg j = s.reg j := rfl

/-! ### `setSt` -/

@[simp] theorem State.setSt_v (b : Byte) : (s.setSt b).v = s.v := rfl
@[simp] theorem State.setSt_i (b : Byte) : (s.setSt b).i = s.i := rfl
@[simp] theorem State.setSt_pc (b : Byte) : (s.setSt b).pc = s.pc := rfl
@[simp] theorem State.setSt_sp (b : Byte) : (s.setSt b).sp = s.sp := rfl
@[simp] theorem State.setSt_dt (b : Byte) : (s.setSt b).dt = s.dt := rfl
@[simp] theorem State.setSt_st (b : Byte) : (s.setSt b).st = b := rfl
@[simp] theorem State.setSt_mem (b : Byte) : (s.setSt b).mem = s.mem := rfl
@[simp] theorem State.setSt_loaded (b : Byte) : (s.setSt b).loaded = s.loaded := rfl
@[simp] theorem State.setSt_run (b : Byte) : (s.setSt b).run = s.run := rfl
@[simp] theorem State.setSt_screen (b : Byte) : (s.setSt b).screen = s.screen := rfl
@[simp] theorem State.setSt_pressedKey (b : Byte) : (s.setSt b).pressedKey = s.pressedKey := rfl
@[simp] theorem State.setSt_loop (b : Byte) : (s.setSt b).loop = s.loop := rfl
@[simp] theorem State.setSt_rnd (b : Byte) : (s.setSt b).rnd = s.rnd := rfl
@[simp] theorem State.setSt_inputs (b : Byte) : (s.setSt b).inputs = s.inputs := rfl
@[simp] theorem State.setSt_turns (b : Byte) : (s.setSt b).turns = s.turns := rfl
@[simp] theorem State.setSt_reg (b : Byte) (j : Reg) : (s.setSt b).reg j = s.reg j := rfl

/-! ### `setMem` -/

@[simp] theorem State.setMem_v (m : Memory) : (s.setMem m).v = s.v := rfl
@[simp] theorem State.setMem_i (m : Memory) : (s.setMem m).i = s.i := rfl
@[simp] theorem State.setMem_pc (m : Memory) : (s.setMem m).pc = s.pc := rfl
@[simp] theorem State.setMem_sp (m : Memory) : (s.setMem m).sp = s.sp := rfl
@[simp] theorem State.setMem_dt (m : Memory) : (s.setMem m).dt = s.dt := rfl
@[simp] theorem State.setMem_st (m : Memory) : (s.setMem m).st = s.st := rfl
@[simp] theorem State.setMem_mem (m : Memory) : (s.setMem m).mem = m := rfl
@[simp] theorem State.setMem_loaded (m : Memory) : (s.setMem m).loaded = s.loaded := rfl
@[simp] theorem State.setMem_run (m : Memory) : (s.setMem m).run = s.run := rfl
@[simp] theorem State.setMem_screen (m : Memory) : (s.setMem m).screen = s.screen := rfl
@[simp] theorem State.setMem_pressedKey (m : Memory) : (s.setMem m).pressedKey = s.pressedKey := rfl
@[simp] theorem State.setMem_loop (m : Memory) : (s.setMem m).loop = s.loop := rfl
@[simp] theorem State.setMem_rnd (m : Memory) : (s.setMem m).rnd = s.rnd := rfl
@[simp] theorem State.setMem_inputs (m : Memory) : (s.setMem m).inputs = s.inputs := rfl
@[simp] theorem State.setMem_turns (m : Memory) : (s.setMem m).turns = s.turns := rfl
@[simp] theorem State.setMem_reg (m : Memory) (j : Reg) : (s.setMem m).reg j = s.reg j := rfl

/-! ### `setScreen` -/

@[simp] theorem State.setScreen_v (scr : Screen) : (s.setScreen scr).v = s.v := rfl
@[simp] theorem State.setScreen_i (scr : Screen) : (s.setScreen scr).i = s.i := rfl
@[simp] theorem State.setScreen_pc (scr : Screen) : (s.setScreen scr).pc = s.pc := rfl
@[simp] theorem State.setScreen_sp (scr : Screen) : (s.setScreen scr).sp = s.sp := rfl
@[simp] theorem State.setScreen_dt (scr : Screen) : (s.setScreen scr).dt = s.dt := rfl
@[simp] theorem State.setScreen_st (scr : Screen) : (s.setScreen scr).st = s.st := rfl
@[simp] theorem State.setScreen_mem (scr : Screen) : (s.setScreen scr).mem = s.mem := rfl
@[simp] theorem State.setScreen_loaded (scr : Screen) : (s.setScreen scr).loaded = s.loaded := rfl
@[simp] theorem State.setScreen_run (scr : Screen) : (s.setScreen scr).run = s.run := rfl
@[simp] theorem State.setScreen_screen (scr : Screen) : (s.setScreen scr).screen = scr := rfl
@[simp] theorem State.setScreen_pressedKey (scr : Screen) : (s.setScreen scr).pressedKey = s.pressedKey := rfl
@[simp] theorem State.setScreen_loop (scr : Screen) : (s.setScreen scr).loop = s.loop := rfl
@[simp] theorem State.setScreen_rnd (scr : Screen) : (s.setScreen scr).rnd = s.rnd := rfl
@[simp] theorem State.setScreen_inputs (scr : Screen) : (s.setScreen scr).inputs = s.inputs := rfl
@[simp] theorem State.setScreen_turns (scr : Screen) : (s.setScreen scr).turns = s.turns := rfl
@[simp] theorem State.setScreen_reg (scr : Screen) (j : Reg) : (s.setScreen scr).reg j = s.reg j := rfl

/-! ### `advance` -/

@[simp] theorem State.advance_v : s.advance.v = s.v := rfl
@[simp] theorem State.advance_i : s.advance.i = s.i := rfl
@[simp] theorem State.advance_pc : s.advance.pc = s.pc + 2 := rfl
@[simp] theorem State.advance_sp : s.advance.sp = s.sp := rfl
@[simp] theorem State.advance_dt : s.advance.dt = s.dt := rfl
@[simp] theorem State.advance_st : s.advance.st = s.st := rfl
@[simp] theorem State.advance_mem : s.advance.mem = s.mem := rfl
@[simp] theorem State.advance_loaded : s.advance.loaded = s.loaded := rfl
@[simp] theorem State.advance_run : s.advance.run = s.run := rfl
@[simp] theorem State.advance_screen : s.advance.screen = s.screen := rfl
@[simp] theorem State.advance_pressedKey : s.advance.pressedKey = s.pressedKey := rfl
@[simp] theorem State.advance_loop : s.advance.loop = s.loop := rfl
@[simp] theorem State.advance_rnd : s.advance.rnd = s.rnd := rfl
@[simp] theorem State.advance_inputs : s.advance.inputs = s.inputs := rfl
@[simp] theorem State.advance_turns : s.advance.turns = s.turns := rfl
@[simp] theorem State.advance_reg (j : Reg) : s.advance.reg j = s.reg j := rfl

/-! ### `skipIf` -/

@[simp] theorem State.skipIf_v (c : Bool) : (s.skipIf c).v = s.v := rfl
@[simp] theorem State.skipIf_i (c : Bool) : (s.skipIf c).i = s.i := rfl
@[simp] theorem State.skipIf_pc (c : Bool) : (s.skipIf c).pc = s.pc + if c then 4 else 2 := rfl
@[simp] theorem State.skipIf_sp (c : Bool) : (s.skipIf c).sp = s.sp := rfl
@[simp] theorem State.skipIf_dt (c : Bool) : (s.skipIf c).dt = s.dt := rfl
@[simp] theorem State.skipIf_st (c : Bool) : (s.skipIf c).st = s.st := rfl
@[simp] theorem State.skipIf_mem (c : Bool) : (s.skipIf c).mem = s.mem := rfl
@[simp] theorem State.skipIf_loaded (c : Bool) : (s.skipIf c).loaded = s.loaded := rfl
@[simp] theorem State.skipIf_run (c : Bool) : (s.skipIf c).run = s.run := rfl
@[simp] theorem State.skipIf_screen (c : Bool) : (s.skipIf c).screen = s.screen := rfl
@[simp] theorem State.skipIf_pressedKey (c : Bool) : (s.skipIf c).pressedKey = s.pressedKey := rfl
@[simp] theorem State.skipIf_loop (c : Bool) : (s.skipIf c).loop = s.loop := rfl
@[simp] theorem State.skipIf_rnd (c : Bool) : (s.skipIf c).rnd = s.rnd := rfl
@[simp] theorem State.skipIf_inputs (c : Bool) : (s.skipIf c).inputs = s.inputs := rfl
@[simp] theorem State.skipIf_turns (c : Bool) : (s.skipIf c).turns = s.turns := rfl
@[simp] theorem State.skipIf_reg (c : Bool) (j : Reg) : (s.skipIf c).reg j = s.reg j := rfl

/-- Two register files are equal when every register reads alike. -/
theorem State.v_ext {s t : State} (h : ∀ k, t.reg k = s.reg k) : t.v = s.v := by
  apply Vector.ext
  intro j hj
  exact h ⟨j, hj⟩

/-! ### `writeResult` -/

@[simp] theorem State.writeResult_eq (x : Reg) (b : Byte) : s.writeResult x b = (s.setReg x b).advance := rfl

end Sys2Proof.Machine
end

