-- ==== Sys2Proof/Laws/Ops.lean ====
section
/-!
SUPPORT. One lemma for each shared memory operation, saying all it can do: the value and the state when the addresses
are in range, and which fault otherwise.
-/

namespace Sys2Proof.Machine

theorem inRange_iff {a : Int} : inRange a = true ↔ 0 ≤ a ∧ a ≤ 0xFFF := by
  cases a with
  | ofNat n =>
    show decide (n < 4096) = true ↔ _
    rw [decide_eq_true_iff, Int.ofNat_eq_natCast]
    omega
  | negSucc n => exact ⟨fun h => absurd h Bool.false_ne_true, fun h => absurd h.1 (by omega)⟩

theorem inRange_natCast {a : Nat} : inRange (a : Int) = true ↔ a ≤ 0xFFF := by
  rw [inRange_iff]; omega

/-- `MemRead(a, 1)` (R53). -/
theorem State.memRead1_eq (s : State) (a : Int) :
    s.memRead1 a = if 0 ≤ a ∧ a ≤ 0xFFF then .ok (s.mem.read a.toNat) else .error (.addressFault a) := by
  unfold State.memRead1
  by_cases h : 0 ≤ a ∧ a ≤ 0xFFF
  · rw [if_pos (inRange_iff.2 h), if_pos h]
  · rw [if_neg (mt inRange_iff.1 h), if_neg h]

/-- `MemRead(a, 2)` (R54). -/
theorem State.memRead2_eq (s : State) (a : Int) :
    s.memRead2 a =
      if 0 ≤ a ∧ a + 1 ≤ 0xFFF then .ok (s.mem.read a.toNat ++ s.mem.read (a.toNat + 1))
      else .error (.addressFault (if 0 ≤ a ∧ a ≤ 0xFFF then a + 1 else a)) := by
  unfold State.memRead2
  rw [State.memRead1_eq, State.memRead1_eq]
  by_cases h : 0 ≤ a ∧ a ≤ 0xFFF
  · by_cases h' : a + 1 ≤ 0xFFF
    · have e : (a + 1).toNat = a.toNat + 1 := by omega
      rw [if_pos h, if_pos (by omega), if_pos (by omega), e]
    · rw [if_pos h, if_neg (by omega), if_neg (by omega), if_pos h]
  · rw [if_neg h, if_neg h, if_neg (by omega : ¬ (0 ≤ a ∧ a + 1 ≤ 0xFFF))]

/-- `MemWrite(a, 1, b)` (R55). -/
theorem State.memWrite1_eq (s : State) (a : Int) (b : Byte) :
    s.memWrite1 a b =
      if 0 ≤ a ∧ a ≤ 0xFFF then .ok (s.setMem (s.mem.write a.toNat b)) else .error (.addressFault a) := by
  unfold State.memWrite1
  by_cases h : 0 ≤ a ∧ a ≤ 0xFFF
  · rw [if_pos (inRange_iff.2 h), if_pos h]
  · rw [if_neg (mt inRange_iff.1 h), if_neg h]

/-- `MemWrite(a, 2, w)` (R56). -/
theorem State.memWrite2_eq (s : State) (a : Int) (w : Word) :
    s.memWrite2 a w =
      if 0 ≤ a ∧ a + 1 ≤ 0xFFF then
        .ok (s.setMem ((s.mem.write a.toNat (w.extractLsb' 8 8)).write (a.toNat + 1) (w.extractLsb' 0 8)))
      else .error (.addressFault (if 0 ≤ a ∧ a ≤ 0xFFF then a + 1 else a)) := by
  unfold State.memWrite2
  rw [State.memWrite1_eq]
  by_cases h : 0 ≤ a ∧ a ≤ 0xFFF
  · rw [if_pos h]
    dsimp only
    rw [State.memWrite1_eq]
    by_cases h' : a + 1 ≤ 0xFFF
    · have e : (a + 1).toNat = a.toNat + 1 := by omega
      rw [if_pos (by omega), if_pos (by omega), e]; rfl
    · rw [if_neg (by omega), if_neg (by omega), if_pos h]
  · rw [if_neg h, if_neg (by omega), if_neg h]

/-- The fetch succeeds exactly when `PC <= 0xFFE` (R58). -/
theorem State.fetch_eq (s : State) :
    s.fetch =
      if s.pc.toNat ≤ 0xFFE then .ok (s.mem.read s.pc.toNat ++ s.mem.read (s.pc.toNat + 1))
      else .error (.addressFault (if s.pc.toNat ≤ 0xFFF then 0x1000 else (s.pc.toNat : Int))) := by
  unfold State.fetch
  rw [State.memRead2_eq]
  by_cases h : s.pc.toNat ≤ 0xFFE
  · rw [if_pos (by omega), if_pos h]; rfl
  · rw [if_neg (by omega), if_neg h]
    by_cases h' : s.pc.toNat ≤ 0xFFF
    · rw [if_pos (by omega), if_pos h', show (s.pc.toNat : Int) + 1 = 0x1000 by omega]
    · rw [if_neg (by omega), if_neg h']

/-- Reading a block from a non-negative address: all its bytes, or a fault at the first address above `0xFFF` (R62). -/
theorem State.readBlock_eq (s : State) (a n : Nat) :
    s.readBlock (a : Int) n =
      if n = 0 ∨ a + n ≤ 0x1000 then .ok ((List.range n).map (fun k => s.mem.read (a + k)))
      else .error (.addressFault (max (a : Int) 0x1000)) := by
  induction n generalizing a with
  | zero => simp [State.readBlock]
  | succ n ih =>
    have e : ((a : Int) + 1) = ((a + 1 : Nat) : Int) := by omega
    rw [State.readBlock, State.memRead1_eq, e, ih]
    by_cases h : a ≤ 0xFFF
    · rw [if_pos (by omega)]
      by_cases h' : a + (n + 1) ≤ 0x1000
      · rw [if_pos (by omega), if_pos (by omega)]
        simp [List.range_succ_eq_map, Function.comp_def, Nat.add_assoc, Nat.add_comm 1]
      · rw [if_neg (by omega), if_neg (by omega)]
        simp only [Except.error.injEq, Fault.addressFault.injEq]
        omega
    · rw [if_neg (by omega : ¬ (0 ≤ (a : Int) ∧ (a : Int) ≤ 0xFFF)),
        if_neg (by omega : ¬ (n + 1 = 0 ∨ a + (n + 1) ≤ 0x1000)), max_eq_left (by omega : (0x1000 : Int) ≤ a)]

/-- Writing a block from a non-negative address: all its bytes, or a fault at the first address above `0xFFF` (R62). -/
theorem State.writeBlock_eq (s : State) (a : Nat) (bs : List Byte) :
    s.writeBlock (a : Int) bs =
      if bs = [] ∨ a + bs.length ≤ 0x1000 then .ok (s.setMem (s.mem.writeList a bs))
      else .error (.addressFault (max (a : Int) 0x1000)) := by
  induction bs generalizing s a with
  | nil => simp [State.writeBlock, Memory.writeList, State.setMem]
  | cons b rest ih =>
    have e : ((a : Int) + 1) = ((a + 1 : Nat) : Int) := by omega
    rw [State.writeBlock, State.memWrite1_eq]
    simp only [List.length_cons]
    by_cases h : a ≤ 0xFFF
    · rw [if_pos (by omega)]
      dsimp only
      rw [e, ih]
      by_cases h' : a + (rest.length + 1) ≤ 0x1000
      · rw [if_pos (by omega), if_pos (by omega)]
        rfl
      · have hne : rest ≠ [] := by rintro rfl; simp at h'; omega
        rw [if_neg (by simp [hne]; omega), if_neg (by simp; omega)]
        simp only [Except.error.injEq, Fault.addressFault.injEq]
        omega
    · rw [if_neg (by omega), if_neg (by simp; omega)]
      simp only [Except.error.injEq, Fault.addressFault.injEq]
      omega

/-- Loading registers from `V[k]` on changes those registers (R145). -/
theorem State.setRegsFrom_reg (s : State) (k : Nat) (bs : List Byte) (h : k + bs.length ≤ 16) (j : Reg) :
    (s.setRegsFrom k bs).reg j =
      if h : k ≤ j.val ∧ j.val < k + bs.length then bs[j.val - k]'(by omega) else s.reg j := by
  induction bs generalizing s k with
  | nil => rw [dif_neg (by simp)]; rfl
  | cons b rest ih =>
    simp only [List.length_cons] at h
    rw [State.setRegsFrom, dif_pos (by omega), ih _ _ (by omega)]
    by_cases e : j.val = k
    · rw [dif_neg (by omega), dif_pos (by simp; omega), State.setReg_reg, if_pos (Fin.ext e)]
      simp [e]
    · by_cases h' : k + 1 ≤ j.val ∧ j.val < k + 1 + rest.length
      · rw [dif_pos h', dif_pos (by simp only [List.length_cons]; omega)]
        have : j.val - k = (j.val - (k + 1)) + 1 := by omega
        simp [this]
      · rw [dif_neg h', dif_neg (by simp only [List.length_cons]; omega), State.setReg_reg,
          if_neg (fun x => e (by rw [x]))]

/-- Loading registers changes nothing but registers. -/
theorem State.setRegsFrom_frame (s : State) (k : Nat) (bs : List Byte) :
    s.setRegsFrom k bs = { s with v := (s.setRegsFrom k bs).v } := by
  induction bs generalizing s k with
  | nil => rfl
  | cons b rest ih =>
    rw [State.setRegsFrom]
    split
    · rw [ih]; rfl
    · rfl

/-- `V[0..x]` is the first `x + 1` registers (R144). -/
theorem State.regsUpTo_eq (s : State) (x : Reg) :
    (s.regsUpTo x).length = x.val + 1 ∧ ∀ j (h : j < (s.regsUpTo x).length) (h' : j < 16),
      (s.regsUpTo x)[j] = s.reg ⟨j, h'⟩ := by
  constructor
  · simp [State.regsUpTo]
  · intro j h h'
    simp [State.regsUpTo, State.reg]

/-- The two writes of R120: `VF` gets the flag of the old operands, then `V[x]` the result of the operands as read
again; nothing but these registers and `PC` changes. -/
theorem State.flagThenResult_spec (s : State) (x y : Reg) (flag result : Byte → Byte → Byte) :
    (∀ j, (s.flagThenResult x y flag result).reg j =
      let f := flag (s.reg x) (s.reg y)
      if j = x then result (if x = regF then f else s.reg x) (if y = regF then f else s.reg y)
      else if j = regF then f else s.reg j) ∧
    s.flagThenResult x y flag result =
      { s with v := (s.flagThenResult x y flag result).v, pc := s.pc + 2 } := by
  constructor
  · intro j
    simp [State.flagThenResult]
  · rfl

end Sys2Proof.Machine
end

