-- ==== Sys2Proof/Laws/PerInstr.lean ====
section
/-!
SUPPORT. The family `TableRow`: the opcode of an instruction has the bits its row of spec/opcode_table.json fixes, stated
for each instruction with that row's mask and match (spec/30_encoding.md R84).
-/

namespace Sys2Proof.Laws.TableRow

/-- The mask of the instruction's row in the opcode table. -/
def rowMask (i : Instr) : Word :=
  match i with
  | .sys _ => 0xF000
  | .cls => 0xFFFF
  | .ret => 0xFFFF
  | .jp _ => 0xF000
  | .call _ => 0xF000
  | .seByte _ _ => 0xF000
  | .sneByte _ _ => 0xF000
  | .seReg _ _ => 0xF00F
  | .ldByte _ _ => 0xF000
  | .addByte _ _ => 0xF000
  | .ldReg _ _ => 0xF00F
  | .orReg _ _ => 0xF00F
  | .andReg _ _ => 0xF00F
  | .xorReg _ _ => 0xF00F
  | .addReg _ _ => 0xF00F
  | .subReg _ _ => 0xF00F
  | .shr _ _ => 0xF00F
  | .subnReg _ _ => 0xF00F
  | .shl _ _ => 0xF00F
  | .sneReg _ _ => 0xF00F
  | .ldI _ => 0xF000
  | .jpV0 _ => 0xF000
  | .rnd _ _ => 0xF000
  | .drw _ _ _ => 0xF000
  | .skp _ => 0xF0FF
  | .sknp _ => 0xF0FF
  | .ldVxDt _ => 0xF0FF
  | .ldVxK _ => 0xF0FF
  | .ldDtVx _ => 0xF0FF
  | .ldStVx _ => 0xF0FF
  | .addIVx _ => 0xF0FF
  | .ldFVx _ => 0xF0FF
  | .ldBVx _ => 0xF0FF
  | .ldMemVx _ => 0xF0FF
  | .ldVxMem _ => 0xF0FF

/-- The match value of the instruction's row in the opcode table. -/
def rowMatch (i : Instr) : Word :=
  match i with
  | .sys _ => 0x0000
  | .cls => 0x00E0
  | .ret => 0x00EE
  | .jp _ => 0x1000
  | .call _ => 0x2000
  | .seByte _ _ => 0x3000
  | .sneByte _ _ => 0x4000
  | .seReg _ _ => 0x5000
  | .ldByte _ _ => 0x6000
  | .addByte _ _ => 0x7000
  | .ldReg _ _ => 0x8000
  | .orReg _ _ => 0x8001
  | .andReg _ _ => 0x8002
  | .xorReg _ _ => 0x8003
  | .addReg _ _ => 0x8004
  | .subReg _ _ => 0x8005
  | .shr _ _ => 0x8006
  | .subnReg _ _ => 0x8007
  | .shl _ _ => 0x800E
  | .sneReg _ _ => 0x9000
  | .ldI _ => 0xA000
  | .jpV0 _ => 0xB000
  | .rnd _ _ => 0xC000
  | .drw _ _ _ => 0xD000
  | .skp _ => 0xE09E
  | .sknp _ => 0xE0A1
  | .ldVxDt _ => 0xF007
  | .ldVxK _ => 0xF00A
  | .ldDtVx _ => 0xF015
  | .ldStVx _ => 0xF018
  | .addIVx _ => 0xF01E
  | .ldFVx _ => 0xF029
  | .ldBVx _ => 0xF033
  | .ldMemVx _ => 0xF055
  | .ldVxMem _ => 0xF065

/-- The opcode has exactly the fixed bits of its row. -/
def Statement (i : Instr) : Prop := encode i &&& rowMask i = rowMatch i

theorem formNnn_mask (c : BitVec 4) (nnn : Addr) : formNnn c nnn &&& 0xF000 = formNnn c 0 := by
  have e : (0xF000 : Word) = (0xF#4 ++ 0#12 : BitVec (4 + 12)) := rfl
  rw [e, formNnn, BitVec.and_append, formNnn]
  congr 1
  · exact BitVec.and_allOnes
  · exact BitVec.and_zero

theorem formXkk_mask (c : BitVec 4) (x : Reg) (kk : Byte) : formXkk c x kk &&& 0xF000 = formXkk c 0 0 := by
  have e : (0xF000 : Word) = (0xF#4 ++ 0#4 ++ 0#8 : BitVec (4 + 4 + 8)) := rfl
  rw [e, formXkk, BitVec.and_append, BitVec.and_append, formXkk]
  congr 1
  · congr 1
    · exact BitVec.and_allOnes
    · exact BitVec.and_zero
  · exact BitVec.and_zero

theorem formXkk_maskX (c : BitVec 4) (x : Reg) (kk : Byte) : formXkk c x kk &&& 0xF0FF = formXkk c 0 kk := by
  have e : (0xF0FF : Word) = (0xF#4 ++ 0#4 ++ 0xFF#8 : BitVec (4 + 4 + 8)) := rfl
  rw [e, formXkk, BitVec.and_append, BitVec.and_append, formXkk]
  congr 1
  · congr 1
    · exact BitVec.and_allOnes
    · exact BitVec.and_zero
  · exact BitVec.and_allOnes

theorem formXyn_mask (c : BitVec 4) (x y : Reg) (n : Fin 16) : formXyn c x y n &&& 0xF00F = formXyn c 0 0 n := by
  have e : (0xF00F : Word) = (0xF#4 ++ 0#4 ++ 0#4 ++ 0xF#4 : BitVec (4 + 4 + 4 + 4)) := rfl
  rw [e, formXyn, BitVec.and_append, BitVec.and_append, BitVec.and_append, formXyn]
  congr 1
  · congr 1
    · congr 1
      · exact BitVec.and_allOnes
      · exact BitVec.and_zero
    · exact BitVec.and_zero
  · exact BitVec.and_allOnes

theorem formXyn_maskC (c : BitVec 4) (x y : Reg) (n : Fin 16) : formXyn c x y n &&& 0xF000 = formXyn c 0 0 0 := by
  have e : (0xF000 : Word) = (0xF#4 ++ 0#4 ++ 0#4 ++ 0x0#4 : BitVec (4 + 4 + 4 + 4)) := rfl
  rw [e, formXyn, BitVec.and_append, BitVec.and_append, BitVec.and_append, formXyn]
  congr 1
  · congr 1
    · congr 1
      · exact BitVec.and_allOnes
      · exact BitVec.and_zero
    · exact BitVec.and_zero
  · exact BitVec.and_zero

theorem sys (nnn : Addr) : Statement (.sys nnn) :=
  (formNnn_mask 0x0 nnn).trans rfl

theorem cls : Statement .cls := by unfold Statement; decide

theorem ret : Statement .ret := by unfold Statement; decide

theorem jp (nnn : Addr) : Statement (.jp nnn) :=
  (formNnn_mask 0x1 nnn).trans rfl

theorem call (nnn : Addr) : Statement (.call nnn) :=
  (formNnn_mask 0x2 nnn).trans rfl

theorem seByte (x : Reg) (kk : Byte) : Statement (.seByte x kk) :=
  (formXkk_mask 0x3 x kk).trans rfl

theorem sneByte (x : Reg) (kk : Byte) : Statement (.sneByte x kk) :=
  (formXkk_mask 0x4 x kk).trans rfl

theorem seReg (x y : Reg) : Statement (.seReg x y) :=
  (formXyn_mask 0x5 x y 0x0).trans rfl

theorem ldByte (x : Reg) (kk : Byte) : Statement (.ldByte x kk) :=
  (formXkk_mask 0x6 x kk).trans rfl

theorem addByte (x : Reg) (kk : Byte) : Statement (.addByte x kk) :=
  (formXkk_mask 0x7 x kk).trans rfl

theorem ldReg (x y : Reg) : Statement (.ldReg x y) :=
  (formXyn_mask 0x8 x y 0x0).trans rfl

theorem orReg (x y : Reg) : Statement (.orReg x y) :=
  (formXyn_mask 0x8 x y 0x1).trans rfl

theorem andReg (x y : Reg) : Statement (.andReg x y) :=
  (formXyn_mask 0x8 x y 0x2).trans rfl

theorem xorReg (x y : Reg) : Statement (.xorReg x y) :=
  (formXyn_mask 0x8 x y 0x3).trans rfl

theorem addReg (x y : Reg) : Statement (.addReg x y) :=
  (formXyn_mask 0x8 x y 0x4).trans rfl

theorem subReg (x y : Reg) : Statement (.subReg x y) :=
  (formXyn_mask 0x8 x y 0x5).trans rfl

theorem shr (x y : Reg) : Statement (.shr x y) :=
  (formXyn_mask 0x8 x y 0x6).trans rfl

theorem subnReg (x y : Reg) : Statement (.subnReg x y) :=
  (formXyn_mask 0x8 x y 0x7).trans rfl

theorem shl (x y : Reg) : Statement (.shl x y) :=
  (formXyn_mask 0x8 x y 0xE).trans rfl

theorem sneReg (x y : Reg) : Statement (.sneReg x y) :=
  (formXyn_mask 0x9 x y 0x0).trans rfl

theorem ldI (nnn : Addr) : Statement (.ldI nnn) :=
  (formNnn_mask 0xA nnn).trans rfl

theorem jpV0 (nnn : Addr) : Statement (.jpV0 nnn) :=
  (formNnn_mask 0xB nnn).trans rfl

theorem rnd (x : Reg) (kk : Byte) : Statement (.rnd x kk) :=
  (formXkk_mask 0xC x kk).trans rfl

theorem drw (x y : Reg) (n : Fin 16) : Statement (.drw x y n) :=
  (formXyn_maskC 0xD x y n).trans rfl

theorem skp (x : Reg) : Statement (.skp x) :=
  (formXkk_maskX 0xE x 0x9E).trans rfl

theorem sknp (x : Reg) : Statement (.sknp x) :=
  (formXkk_maskX 0xE x 0xA1).trans rfl

theorem ldVxDt (x : Reg) : Statement (.ldVxDt x) :=
  (formXkk_maskX 0xF x 0x07).trans rfl

theorem ldVxK (x : Reg) : Statement (.ldVxK x) :=
  (formXkk_maskX 0xF x 0x0A).trans rfl

theorem ldDtVx (x : Reg) : Statement (.ldDtVx x) :=
  (formXkk_maskX 0xF x 0x15).trans rfl

theorem ldStVx (x : Reg) : Statement (.ldStVx x) :=
  (formXkk_maskX 0xF x 0x18).trans rfl

theorem addIVx (x : Reg) : Statement (.addIVx x) :=
  (formXkk_maskX 0xF x 0x1E).trans rfl

theorem ldFVx (x : Reg) : Statement (.ldFVx x) :=
  (formXkk_maskX 0xF x 0x29).trans rfl

theorem ldBVx (x : Reg) : Statement (.ldBVx x) :=
  (formXkk_maskX 0xF x 0x33).trans rfl

theorem ldMemVx (x : Reg) : Statement (.ldMemVx x) :=
  (formXkk_maskX 0xF x 0x55).trans rfl

theorem ldVxMem (x : Reg) : Statement (.ldVxMem x) :=
  (formXkk_maskX 0xF x 0x65).trans rfl

end Sys2Proof.Laws.TableRow
end

