-- ==== Sys2Proof/Laws/Step.lean ====
section
/-!
SUPPORT. How a step opens: the CPU enabled or not, the fetch, the decode. Cite these; unfolding `cpuStep` beside
`executeWord` makes the kernel evaluate the decoder.
-/

namespace Sys2Proof.Machine

theorem step_of_enabled {s : State} (h : s.cpuEnabled = true) : step s = thenTurn (cpuStep s) := by
  unfold step stepState
  rw [if_pos h]

theorem step_of_disabled {s : State} (h : s.cpuEnabled = false) : step s = .next s.turn := by
  unfold step stepState
  rw [if_neg (by rw [h]; exact Bool.false_ne_true)]

theorem cpuStep_of_fetch_ok {s : State} {op : Word} (h : s.fetch = .ok op) : cpuStep s = executeWord op s := by
  unfold cpuStep
  split
  · next f e => rw [h] at e; cases e
  · next w e => rw [h] at e; cases e; exact rfl

theorem cpuStep_of_fetch_error {s : State} {f : Fault} (h : s.fetch = .error f) : cpuStep s = .fault f := by
  unfold cpuStep
  split
  · next g e => rw [h] at e; cases e; rfl
  · next w e => rw [h] at e; cases e

theorem executeWord_of_decode_ok {op : Word} {i : Instr} (s : State) (h : decodeWord op = .ok i) :
    executeWord op s = exec i s := by
  unfold executeWord
  split
  · next r e => rw [h] at e; cases e
  · next j e => rw [h] at e; cases e; exact rfl

theorem executeWord_of_decode_error {op : Word} {r : Reject} (s : State) (h : decodeWord op = .error r) :
    executeWord op s = .fault (.decodeFault op s.pc) := by
  unfold executeWord
  split
  · rfl
  · next j e => rw [h] at e; cases e

/-- The CPU is enabled exactly when the engine runs and nothing has ended the run loop (R191). -/
theorem State.cpuEnabled_iff {s : State} : s.cpuEnabled = true ↔ s.run = .running ∧ s.loop = .active := by
  unfold State.cpuEnabled
  rw [decide_eq_true_iff]

theorem thenTurn_eq_next {r : Result} {t : State} : thenTurn r = .next t ↔ ∃ u, r = .next u ∧ t = u.turn := by
  cases r with
  | next u =>
    constructor
    · intro h; cases h; exact ⟨u, rfl, rfl⟩
    · rintro ⟨v, hv, rfl⟩; cases hv; rfl
  | fault f => exact ⟨fun h => (nomatch h), fun ⟨_, h, _⟩ => (nomatch h)⟩
  | refused q => exact ⟨fun h => (nomatch h), fun ⟨_, h, _⟩ => (nomatch h)⟩

theorem thenTurn_eq_fault {r : Result} {f : Fault} : thenTurn r = .fault f ↔ r = .fault f := by
  cases r with
  | next u => exact ⟨fun h => (nomatch h), fun h => (nomatch h)⟩
  | fault g => exact Iff.rfl
  | refused q => exact ⟨fun h => (nomatch h), fun h => (nomatch h)⟩

end Sys2Proof.Machine
end

