-- ==== Sys2Proof/Machine/Assembler.lean ====
section
/-!
DEFINITION. The text tools on either side of the opcode table, as far as the spec describes them
(spec/30_encoding.md R88 to R94): the assembler, from source text to a flat big-endian ROM, and
the disassembler, from a ROM to text. They are no part of a step of the machine. Text is a list of characters.
-/

namespace Sys2Proof.Machine

/-- Source text, or one line or token of it. -/
abbrev Text := List Char

/-! ### Lines and tokens (R89) -/

/-- Cut a text at the characters that satisfy `p`. -/
def splitText (p : Char → Bool) : Text → List Text
  | [] => [[]]
  | c :: rest =>
    if p c then [] :: splitText p rest
    else
      match splitText p rest with
      | [] => [[c]]
      | t :: ts => (c :: t) :: ts

/-- What separates tokens: white space and commas (R89). Which characters are white space is the model's choice, since the
spec only says "whitespace": space, tab and carriage return; a vertical tab or a form feed is part of a token. DESIGN
CHOICE: notes/assumptions/21.md. -/
def isSeparator (c : Char) : Bool := c == ' ' || c == ',' || c == '\t' || c == '\r'

/-- The upper-case form of a letter (R89). The spec only says "uppercase" and names no character set: that `a` to `z` alone
have an upper-case form, and every other character stays as it is, is the model's choice. DESIGN CHOICE:
notes/assumptions/21.md. -/
def upperChar (c : Char) : Char := if 97 ≤ c.toNat ∧ c.toNat ≤ 122 then Char.ofNat (c.toNat - 32) else c

/-- The tokens of a line: comment stripped, upper case, split at white space and commas (R89). -/
def lineTokens (line : Text) : List Text :=
  (splitText isSeparator ((line.takeWhile (fun c => c != '#')).map upperChar)).filter (fun t => t != [])

/-! ### Operand tokens (R90) -/

/-- The value of a digit of an upper-case token. -/
def digitValue (c : Char) : Option Nat :=
  if 48 ≤ c.toNat ∧ c.toNat ≤ 57 then some (c.toNat - 48)
  else if 65 ≤ c.toNat ∧ c.toNat ≤ 70 then some (c.toNat - 55)
  else none

/-- A string of digits in a radix, read after the value `acc`. -/
def digitsValue (radix acc : Nat) : Text → Option Nat
  | [] => some acc
  | c :: rest =>
    match digitValue c with
    | none => none
    | some d => if d < radix then digitsValue radix (acc * radix + d) rest else none

/-- The same for at least one digit. -/
def someDigitsValue (radix : Nat) (t : Text) : Option Nat := if t = [] then none else digitsValue radix 0 t

/-- A numeric literal: `0B` binary, `0X` hexadecimal, a bare leading `0` octal, otherwise decimal (R90). -/
def numberToken (t : Text) : Option Nat :=
  match t with
  | '0' :: 'B' :: ds => someDigitsValue 2 ds
  | '0' :: 'X' :: ds => someDigitsValue 16 ds
  | '0' :: ds => digitsValue 8 0 ds
  | _ => someDigitsValue 10 t

/-- A register token: `V` and one hexadecimal digit (R90). -/
def registerToken (t : Text) : Option Reg :=
  match t with
  | ['V', c] =>
    match digitValue c with
    | none => none
    | some d => if h : d < 16 then some ⟨d, h⟩ else none
  | _ => none

/-! ### The table, by mnemonic and operands (R84, R91, R92) -/

/-- What may stand in an operand's place, and which bits of the opcode it gives. -/
inductive Slot where
  /-- A fixed token, such as `I` or `DT`; no bits. -/
  | fixed (t : Text)
  /-- A register, in bits 11:8. -/
  | regX
  /-- A register, in bits 7:4. -/
  | regY
  /-- A number, in the low bits. -/
  | num (bits : Nat)
  deriving DecidableEq, Repr

/-- One spelling: a mnemonic, its operands, and the opcode with its fields zero. -/
structure AsmForm where
  name : Text
  slots : List Slot
  base : Word
  deriving DecidableEq, Repr

/-- The forms of control flow and of the raw words (R84, R92). -/
def formsControl : List AsmForm :=
  [⟨['C', 'L', 'S'], [], 0x00E0⟩, ⟨['R', 'E', 'T'], [], 0x00EE⟩,
   ⟨['S', 'Y', 'S'], [.num 16], 0x0000⟩, ⟨['F', 'I', 'L', 'L'], [.num 16], 0x0000⟩,
   ⟨['J', 'P'], [.fixed ['V', '0'], .num 12], 0xB000⟩, ⟨['J', 'P'], [.num 12], 0x1000⟩,
   ⟨['C', 'A', 'L', 'L'], [.num 12], 0x2000⟩,
   ⟨['S', 'E'], [.regX, .num 8], 0x3000⟩, ⟨['S', 'N', 'E'], [.regX, .num 8], 0x4000⟩,
   ⟨['S', 'E'], [.regX, .regY], 0x5000⟩, ⟨['S', 'N', 'E'], [.regX, .regY], 0x9000⟩]

/-- The forms of loads, arithmetic, logic, random, drawing and keys (R84). -/
def formsAlu : List AsmForm :=
  [⟨['L', 'D'], [.regX, .num 8], 0x6000⟩, ⟨['A', 'D', 'D'], [.regX, .num 8], 0x7000⟩,
   ⟨['L', 'D'], [.regX, .regY], 0x8000⟩, ⟨['O', 'R'], [.regX, .regY], 0x8001⟩,
   ⟨['A', 'N', 'D'], [.regX, .regY], 0x8002⟩, ⟨['X', 'O', 'R'], [.regX, .regY], 0x8003⟩,
   ⟨['A', 'D', 'D'], [.regX, .regY], 0x8004⟩, ⟨['S', 'U', 'B'], [.regX, .regY], 0x8005⟩,
   ⟨['S', 'H', 'R'], [.regX], 0x8006⟩, ⟨['S', 'U', 'B', 'N'], [.regX, .regY], 0x8007⟩,
   ⟨['S', 'H', 'L'], [.regX], 0x800E⟩, ⟨['R', 'N', 'D'], [.regX, .num 8], 0xC000⟩,
   ⟨['D', 'R', 'W'], [.regX, .regY, .num 4], 0xD000⟩,
   ⟨['S', 'K', 'P'], [.regX], 0xE09E⟩, ⟨['S', 'K', 'N', 'P'], [.regX], 0xE0A1⟩]

/-- The forms of the index register, the timers and the key wait (R84). -/
def formsIndex : List AsmForm :=
  [⟨['L', 'D'], [.fixed ['I'], .num 12], 0xA000⟩, ⟨['L', 'D'], [.regX, .fixed ['D', 'T']], 0xF007⟩,
   ⟨['L', 'D'], [.regX, .fixed ['K']], 0xF00A⟩, ⟨['L', 'D'], [.fixed ['D', 'T'], .regX], 0xF015⟩,
   ⟨['L', 'D'], [.fixed ['S', 'T'], .regX], 0xF018⟩, ⟨['A', 'D', 'D'], [.fixed ['I'], .regX], 0xF01E⟩,
   ⟨['L', 'D'], [.fixed ['F'], .regX], 0xF029⟩, ⟨['L', 'D'], [.fixed ['B'], .regX], 0xF033⟩,
   ⟨['L', 'D'], [.fixed ['[', 'I', ']'], .regX], 0xF055⟩, ⟨['L', 'D'], [.regX, .fixed ['[', 'I', ']']], 0xF065⟩]

/-- All the forms. -/
def asmForms : List AsmForm := formsControl ++ formsAlu ++ formsIndex

/-! ### The assembler (R89, R92, R93) -/

/-- Why a line does not assemble. The first three are the source's (R93); the last is the error that an open line may be
(N15; notes/assumptions/10.md). -/
inductive AsmError where
  | unknownMnemonic
  | malformedOperand
  | tooFewOperands
  | openOperands
  deriving DecidableEq, Repr

/-- Whether a token may stand in an operand's place. -/
def slotFits (sl : Slot) (t : Text) : Bool :=
  match sl with
  | .fixed u => t == u
  | .regX => (registerToken t).isSome
  | .regY => (registerToken t).isSome
  | .num _ => (numberToken t).isSome

/-- Whether the operands begin with ones that fit the form's places. -/
def slotsFit : List Slot → List Text → Bool
  | [], _ => true
  | _ :: _, [] => false
  | sl :: sls, t :: ts => slotFits sl t && slotsFit sls ts

/-- Whether a number is too large for its field (R93; N15). -/
def slotOversize (sl : Slot) (t : Text) : Bool :=
  match sl with
  | .fixed _ => false
  | .regX => false
  | .regY => false
  | .num bits =>
    match numberToken t with
    | some v => decide (2 ^ bits ≤ v)
    | none => false

/-- Whether some operand is a number too large for its field. -/
def someOversize : List Slot → List Text → Bool
  | sl :: sls, t :: ts => slotOversize sl t || someOversize sls ts
  | _, _ => false

/-- The bits an operand gives the opcode. -/
def slotBits (sl : Slot) (t : Text) : Except AsmError Word :=
  match sl with
  | .fixed _ => .ok 0
  | .regX =>
    match registerToken t with
    | some x => .ok (formXkk 0 x 0)
    | none => .error .malformedOperand
  | .regY =>
    match registerToken t with
    | some y => .ok (formXyn 0 0 y 0)
    | none => .error .malformedOperand
  | .num _ =>
    match numberToken t with
    | some v => .ok (BitVec.ofNat 16 v)
    | none => .error .malformedOperand

/-- The opcode of a form with its operands put in, from the opcode so far. -/
def putSlots (w : Word) : List Slot → List Text → Except AsmError Word
  | sl :: sls, t :: ts =>
    match slotBits sl t with
    | .ok b => putSlots (w ||| b) sls ts
    | .error e => .error e
  | _, _ => .ok w

/-- The `y` nibble of the two shifts, which their one-register spelling does not give (R91; N13): open, by the opcode so far
(notes/assumptions/10.md). -/
def shiftY (f : AsmForm) (w : Word) : Word :=
  if f.base = 0x8006 ∨ f.base = 0x800E then w ||| formXyn 0 0 (Config.asmShiftY w) 0 else w

/-- A line with an operand too large or operands to spare: the spec leaves it open, so nothing of it is fixed here, neither
the field nor the rest of the word, nor whether it is an error (R93; N15; notes/assumptions/10.md). -/
def assembleOpen (name : Text) (ops : List Text) : Except AsmError Word :=
  match Config.asmOpenLine name ops with
  | some w => .ok w
  | none => .error .openOperands

/-- The opcode of one line's tokens. -/
def assembleTokens (name : Text) (ops : List Text) : Except AsmError Word :=
  let forms := asmForms.filter (fun f => f.name == name)
  if forms = [] then .error .unknownMnemonic
  else
    match forms.find? (fun f => slotsFit f.slots ops) with
    | some f =>
      if f.slots.length < ops.length || someOversize f.slots ops then assembleOpen name ops
      else
        match putSlots f.base f.slots ops with
        | .ok w => .ok (shiftY f w)
        | .error e => .error e
    | none =>
      if forms.all (fun f => decide (ops.length < f.slots.length)) then .error .tooFewOperands
      else .error .malformedOperand

/-- The lines from line `k` on: two bytes each, most significant first, none for an empty one. The first failure, with
its 1-based line number, is the whole result (R93). -/
def assembleLines (k : Nat) : List Text → Except (Nat × AsmError) (List Byte)
  | [] => .ok []
  | line :: rest =>
    match lineTokens line with
    | [] => assembleLines (k + 1) rest
    | name :: ops =>
      match assembleTokens name ops with
      | .error e => .error (k, e)
      | .ok w =>
        match assembleLines (k + 1) rest with
        | .ok bs => .ok (bytesOfWord w ++ bs)
        | .error e => .error e

/-- The ROM of a source text (R89). The spec only says "per line": that a line feed alone ends a line is the model's choice
(a carriage return before it is white space). DESIGN CHOICE: notes/assumptions/21.md. -/
def assemble (source : Text) : Except (Nat × AsmError) (List Byte) :=
  assembleLines 1 (splitText (fun c => c == '\n') source)

/-! ### The disassembler (R88, R94) -/

/-- One hexadecimal digit. -/
def hexDigit (n : Nat) : Char := Char.ofNat (if n < 10 then 48 + n else 55 + n)

/-- The low `k` hexadecimal digits of a number. -/
def hexDigits : Nat → Nat → Text
  | 0, _ => []
  | k + 1, n => hexDigits k (n / 16) ++ [hexDigit (n % 16)]

/-- A number as `0x` and `k` digits (R94). -/
def hexText (k n : Nat) : Text := '0' :: 'x' :: hexDigits k n

/-- A register as `V` and a digit. -/
def regText (x : Reg) : Text := ['V', hexDigit x.val]

/-- An address as `0x` and three digits (R94). -/
def addrText (nnn : Addr) : Text := hexText 3 nnn.toNat

/-- A byte as `0x` and two digits. -/
def byteText (kk : Byte) : Text := hexText 2 kk.toNat

/-- The operands, separated by a comma and a space. -/
def operandsText : List Text → Text
  | [] => []
  | [t] => t
  | t :: ts => t ++ [',', ' '] ++ operandsText ts

/-- A line: the mnemonic in a column of five characters, then the operands (R94; 90_conflicts.md C5). -/
def lineText (name : Text) (ops : List Text) : Text :=
  if ops = [] then name else name ++ List.replicate (5 - name.length) ' ' ++ operandsText ops

/-- A word as data (R88). -/
def fillText (op : Word) : Text := lineText ['F', 'I', 'L', 'L'] [hexText 4 op.toNat]

/-- A load, the mnemonic most rows share. -/
def ldText (a b : Text) : Text := lineText ['L', 'D'] [a, b]

/-- The line of an instruction, by the mnemonics of R84. -/
def instrText (i : Instr) : Text :=
  match i with
  | .sys nnn => if Config.disasmSysAsFill nnn then fillText (formNnn 0 nnn) else lineText ['S', 'Y', 'S'] [addrText nnn]
  | .cls => lineText ['C', 'L', 'S'] []
  | .ret => lineText ['R', 'E', 'T'] []
  | .jp nnn => lineText ['J', 'P'] [addrText nnn]
  | .call nnn => lineText ['C', 'A', 'L', 'L'] [addrText nnn]
  | .seByte x kk => lineText ['S', 'E'] [regText x, byteText kk]
  | .sneByte x kk => lineText ['S', 'N', 'E'] [regText x, byteText kk]
  | .seReg x y => lineText ['S', 'E'] [regText x, regText y]
  | .ldByte x kk => ldText (regText x) (byteText kk)
  | .addByte x kk => lineText ['A', 'D', 'D'] [regText x, byteText kk]
  | .ldReg x y => ldText (regText x) (regText y)
  | .orReg x y => lineText ['O', 'R'] [regText x, regText y]
  | .andReg x y => lineText ['A', 'N', 'D'] [regText x, regText y]
  | .xorReg x y => lineText ['X', 'O', 'R'] [regText x, regText y]
  | .addReg x y => lineText ['A', 'D', 'D'] [regText x, regText y]
  | .subReg x y => lineText ['S', 'U', 'B'] [regText x, regText y]
  | .shr x _ => lineText ['S', 'H', 'R'] [regText x]
  | .subnReg x y => lineText ['S', 'U', 'B', 'N'] [regText x, regText y]
  | .shl x _ => lineText ['S', 'H', 'L'] [regText x]
  | .sneReg x y => lineText ['S', 'N', 'E'] [regText x, regText y]
  | .ldI nnn => ldText ['I'] (addrText nnn)
  | .jpV0 nnn => lineText ['J', 'P'] [['V', '0'], addrText nnn]
  | .rnd x kk => lineText ['R', 'N', 'D'] [regText x, byteText kk]
  | .drw x y n => lineText ['D', 'R', 'W'] [regText x, regText y, hexText 1 n.val]
  | .skp x => lineText ['S', 'K', 'P'] [regText x]
  | .sknp x => lineText ['S', 'K', 'N', 'P'] [regText x]
  | .ldVxDt x => ldText (regText x) ['D', 'T']
  | .ldVxK x => ldText (regText x) ['K']
  | .ldDtVx x => ldText ['D', 'T'] (regText x)
  | .ldStVx x => ldText ['S', 'T'] (regText x)
  | .addIVx x => lineText ['A', 'D', 'D'] [['I'], regText x]
  | .ldFVx x => ldText ['F'] (regText x)
  | .ldBVx x => ldText ['B'] (regText x)
  | .ldMemVx x => ldText ['[', 'I', ']'] (regText x)
  | .ldVxMem x => ldText (regText x) ['[', 'I', ']']

/-- The line of a word: an ILLEGAL one is data, never a fault (R88). -/
def disasmWord (op : Word) : Text :=
  match decodeWord op with
  | .ok i => instrText i
  | .error _ => fillText op

/-- One line for each two bytes; an odd byte at the end is not consumed (R94). -/
def disasmLines : List Byte → List Text
  | hi :: lo :: rest => disasmWord (wordOfBytes hi lo) :: disasmLines rest
  | _ => []

/-- The longest input, in bytes: the spec quotes both readings and chooses neither (R94; 90_conflicts.md C4). -/
def disasmCeiling : Nat := if Config.disasmTakesWords then 4096 else 2048

/-- The disassembly of a ROM, the header line first; none for an input above the ceiling (R94). -/
def disassemble (rom : List Byte) : Option (List Text) :=
  if rom.length ≤ disasmCeiling then some (('#' :: Config.disasmHeader) :: disasmLines rom) else none

end Sys2Proof.Machine
end

