-- ==== Sys2Proof/Tests/Slice0.lean ====
section
/-!
SUPPORT. Tests. Expected values come from spec/95_test_vectors.md (the id stands before each) or are worked out by hand from the
rule named; then a witness for each statement of Certificates/Slice0/Obligations.lean that has hypotheses.
-/

namespace Sys2Proof.Tests

open Sys2Proof.Machine Sys2Proof.Safety Sys2Proof.Claim

/-- The reset state with some registers set. -/
def regs (l : List (Reg × Byte)) : State := l.foldl (fun s p => s.setReg p.1 p.2) State.reset

/-- The same state with bytes in memory. -/
def bytesAt (s : State) (a : Nat) (bs : List Byte) : State := { s with mem := s.mem.writeList a bs }

/-- The outcome is a next state with a property. -/
def after (r : Result) (p : State → Bool) : Bool :=
  match r with
  | .next t => p t
  | .fault _ => false
  | .refused _ => false

/-- The outcome is this fault. -/
def faults (r : Result) (f : Fault) : Bool :=
  match r with
  | .next _ => false
  | .fault g => g == f
  | .refused _ => false

/-- The sixteen registers with `V[k] = k + 1`. -/
def risingRegs : State := { State.reset with v := ⟨#[1, 2, 3, 4, 5, 6, 7, 8, 9, 10, 11, 12, 13, 14, 15, 16], rfl⟩ }

/-! ### Well-formedness: `SYS` never has the addresses of `CLS` and `RET` (R85) -/

theorem test_wf_sys_cls : Instr.wellFormed (.sys 0x0E0) = false := by decide
theorem test_wf_sys_ret : Instr.wellFormed (.sys 0x0EE) = false := by decide
theorem test_wf_sys : Instr.wellFormed (.sys 0x0E1) = true := by decide

/-! ### Decoding: one word for each constructor, bit by bit from its pattern in R84 -/

theorem test_decode_sys : decodeWord 0b0000000100100011 = .ok (.sys 0x123) := by decide
theorem test_decode_cls : decodeWord 0b0000000011100000 = .ok (.cls) := by decide
theorem test_decode_ret : decodeWord 0b0000000011101110 = .ok (.ret) := by decide
theorem test_decode_jp : decodeWord 0b0001101010111100 = .ok (.jp 0xABC) := by decide
theorem test_decode_call : decodeWord 0b0010001100000001 = .ok (.call 0x301) := by decide
theorem test_decode_seByte : decodeWord 0b0011101001000010 = .ok (.seByte 10 0x42) := by decide
theorem test_decode_sneByte : decodeWord 0b0100101001000010 = .ok (.sneByte 10 0x42) := by decide
theorem test_decode_seReg : decodeWord 0b0101000100100000 = .ok (.seReg 1 2) := by decide
theorem test_decode_ldByte : decodeWord 0b0110001100101010 = .ok (.ldByte 3 0x2A) := by decide
theorem test_decode_addByte : decodeWord 0b0111000000000011 = .ok (.addByte 0 3) := by decide
theorem test_decode_ldReg : decodeWord 0b1000000100100000 = .ok (.ldReg 1 2) := by decide
theorem test_decode_orReg : decodeWord 0b1000000100100001 = .ok (.orReg 1 2) := by decide
theorem test_decode_andReg : decodeWord 0b1000000100100010 = .ok (.andReg 1 2) := by decide
theorem test_decode_xorReg : decodeWord 0b1000000100100011 = .ok (.xorReg 1 2) := by decide
theorem test_decode_addReg : decodeWord 0b1000000100100100 = .ok (.addReg 1 2) := by decide
theorem test_decode_subReg : decodeWord 0b1000000100100101 = .ok (.subReg 1 2) := by decide
theorem test_decode_shr : decodeWord 0b1000000100100110 = .ok (.shr 1 2) := by decide
theorem test_decode_subnReg : decodeWord 0b1000000100100111 = .ok (.subnReg 1 2) := by decide
theorem test_decode_shl : decodeWord 0b1000000100101110 = .ok (.shl 1 2) := by decide
theorem test_decode_sneReg : decodeWord 0b1001000100100000 = .ok (.sneReg 1 2) := by decide
theorem test_decode_ldI : decodeWord 0b1010001000110100 = .ok (.ldI 0x234) := by decide
theorem test_decode_jpV0 : decodeWord 0b1011001100000000 = .ok (.jpV0 0x300) := by decide
theorem test_decode_rnd : decodeWord 0b1100000100001111 = .ok (.rnd 1 0x0F) := by decide
theorem test_decode_drw : decodeWord 0b1101000100101111 = .ok (.drw 1 2 15) := by decide
theorem test_decode_skp : decodeWord 0b1110000110011110 = .ok (.skp 1) := by decide
theorem test_decode_sknp : decodeWord 0b1110000110100001 = .ok (.sknp 1) := by decide
theorem test_decode_ldVxDt : decodeWord 0b1111010100000111 = .ok (.ldVxDt 5) := by decide
theorem test_decode_ldVxK : decodeWord 0b1111000100001010 = .ok (.ldVxK 1) := by decide
theorem test_decode_ldDtVx : decodeWord 0b1111000100010101 = .ok (.ldDtVx 1) := by decide
theorem test_decode_ldStVx : decodeWord 0b1111000100011000 = .ok (.ldStVx 1) := by decide
theorem test_decode_addIVx : decodeWord 0b1111000100011110 = .ok (.addIVx 1) := by decide
theorem test_decode_ldFVx : decodeWord 0b1111001000101001 = .ok (.ldFVx 2) := by decide
theorem test_decode_ldBVx : decodeWord 0b1111001100110011 = .ok (.ldBVx 3) := by decide
theorem test_decode_ldMemVx : decodeWord 0b1111001101010101 = .ok (.ldMemVx 3) := by decide
theorem test_decode_ldVxMem : decodeWord 0b1111001101100101 = .ok (.ldVxMem 3) := by decide

-- K11, K12, A53, Y13, X7: words that match no row
theorem test_reject_5_9 : decodeWord 0x5121 = .error (.illegal 0x5121) ∧ decodeWord 0x912F = .error (.illegal 0x912F) := by
  decide
theorem test_reject_8 : decodeWord 0x8128 = .error (.illegal 0x8128) ∧ decodeWord 0x812F = .error (.illegal 0x812F) := by
  decide
theorem test_reject_E_F : decodeWord 0xE1A0 = .error (.illegal 0xE1A0) ∧ decodeWord 0xF185 = .error (.illegal 0xF185) := by
  decide
-- R80: one opcode is two bytes, and one byte is none
theorem test_decode_truncated : decode [0x12] = .error .truncated := by decide
theorem test_table_word : decodeTableWord 16 0x8124 = some (.addReg 1 2) := by decide

/-! ### Control flow -/

-- CF1
theorem test_jp : after (executeWord 0x1ABC State.reset) (fun t => t.pc == 0x0ABC && t.sp == 0x0052) = true := by decide
-- CF3
theorem test_call : after (executeWord 0x2300 State.reset) (fun t => t.pc == 0x0300 && t.sp == 0x0054 &&
    t.mem == [(0x052, 0x02), (0x053, 0x02)]) = true := by decide
-- CF5
theorem test_call_top : faults (executeWord 0x2300 { State.reset with sp := 0x0FFF }) (.addressFault 0x1000) = true := by
  decide
-- CF6
theorem test_ret : after (executeWord 0x00EE (bytesAt { State.reset with sp := 0x1000 } 0xFFE [0x03, 0x45]))
    (fun t => t.pc == 0x0345 && t.sp == 0x0FFE) = true := by decide
-- CF8
theorem test_ret_below : faults (executeWord 0x00EE { State.reset with sp := 0x0001 }) (.addressFault (-1)) = true := by
  decide
-- CF12
theorem test_jpV0_wraps : after (executeWord 0xBFFF (regs [(0, 0x02)])) (fun t => t.pc == 0x0001) = true := by decide
-- CF17: the skip goes past the top of memory, and is not wrapped
theorem test_skip_past_top : after (executeWord 0x3000 { State.reset with pc := 0x0FFE }) (fun t => t.pc == 0x1002) = true := by
  decide

/-! ### Skips -/

-- K1, K2
theorem test_seByte : after (executeWord 0x3A42 (regs [(10, 0x42)])) (fun t => t.pc == 0x0204) = true ∧
    after (executeWord 0x3A42 (regs [(10, 0x43)])) (fun t => t.pc == 0x0202) = true := by decide
-- K3, K4
theorem test_sneByte : after (executeWord 0x4A42 (regs [(10, 0x42)])) (fun t => t.pc == 0x0202) = true ∧
    after (executeWord 0x4A42 (regs [(10, 0x43)])) (fun t => t.pc == 0x0204) = true := by decide
-- K5, K6
theorem test_seReg : after (executeWord 0x5120 (regs [(1, 7), (2, 7)])) (fun t => t.pc == 0x0204) = true ∧
    after (executeWord 0x5120 (regs [(1, 7), (2, 8)])) (fun t => t.pc == 0x0202) = true := by decide
-- K8, K9
theorem test_sneReg : after (executeWord 0x9120 (regs [(1, 7), (2, 7)])) (fun t => t.pc == 0x0202) = true ∧
    after (executeWord 0x9120 (regs [(1, 7), (2, 8)])) (fun t => t.pc == 0x0204) = true := by decide

/-! ### Loads, arithmetic, logic, random -/

-- A1
theorem test_addByte : after (executeWord 0x7003 (regs [(0, 0x05)]))
    (fun t => t.reg 0 == 0x08 && t.reg 15 == 0x00 && t.pc == 0x0202) = true := by decide
-- A2
theorem test_addByte_no_flag : after (executeWord 0x7001 (regs [(0, 0xFF), (15, 0x07)]))
    (fun t => t.reg 0 == 0x00 && t.reg 15 == 0x07 && t.pc == 0x0202) = true := by decide
-- A4
theorem test_addReg : after (executeWord 0x8124 (regs [(1, 0xF0), (2, 0x20)]))
    (fun t => t.reg 1 == 0x10 && t.reg 15 == 0x01 && t.pc == 0x0202) = true := by decide
-- A7
theorem test_addReg_y_is_F : after (executeWord 0x81F4 (regs [(1, 0xC8), (15, 0x64)]))
    (fun t => t.reg 1 == 0xC9 && t.reg 15 == 0x01 && t.pc == 0x0202) = true := by decide
-- A14
theorem test_subReg : after (executeWord 0x8125 (regs [(1, 0x20), (2, 0x10)]))
    (fun t => t.reg 1 == 0x10 && t.reg 15 == 0x00 && t.pc == 0x0202) = true := by decide
-- A20
theorem test_subReg_x_is_F : after (executeWord 0x8F15 (regs [(15, 0x05), (1, 0x09)]))
    (fun t => t.reg 15 == 0xF8 && t.reg 1 == 0x09 && t.pc == 0x0202) = true := by decide
-- A24
theorem test_subnReg : after (executeWord 0x8127 (regs [(1, 0x10), (2, 0x20)]))
    (fun t => t.reg 1 == 0xF0 && t.reg 15 == 0x00 && t.pc == 0x0202) = true := by decide
-- A27
theorem test_subnReg_y_is_F : after (executeWord 0x81F7 (regs [(1, 0x09), (15, 0x05)]))
    (fun t => t.reg 1 == 0x08 && t.reg 15 == 0x01 && t.pc == 0x0202) = true := by decide
-- A36
theorem test_shr_ignores_y : after (executeWord 0x8126 (regs [(1, 0x03), (15, 0x55), (2, 0xEE)]))
    (fun t => t.reg 1 == 0x01 && t.reg 15 == 0x01 && t.reg 2 == 0xEE && t.pc == 0x0202) = true := by decide
-- A37
theorem test_shr_x_is_F : after (executeWord 0x8F06 (regs [(15, 0xFF)]))
    (fun t => t.reg 15 == 0x00 && t.pc == 0x0202) = true := by decide
-- A39
theorem test_shl : after (executeWord 0x810E (regs [(1, 0x81)]))
    (fun t => t.reg 1 == 0x02 && t.reg 15 == 0x80 && t.pc == 0x0202) = true := by decide
-- A43
theorem test_shl_x_is_F : after (executeWord 0x8F0E (regs [(15, 0xFF)]))
    (fun t => t.reg 15 == 0x00 && t.pc == 0x0202) = true := by decide
-- A45
theorem test_ldReg : after (executeWord 0x8120 (regs [(2, 0x77)]))
    (fun t => t.reg 1 == 0x77 && t.reg 2 == 0x77 && t.reg 15 == 0x00 && t.pc == 0x0202) = true := by decide
-- A46
theorem test_orReg : after (executeWord 0x8121 (regs [(1, 0xF0), (2, 0x0F), (15, 0x09)]))
    (fun t => t.reg 1 == 0xFF && t.reg 15 == 0x09 && t.pc == 0x0202) = true := by decide
-- A47
theorem test_andReg : after (executeWord 0x8122 (regs [(1, 0xF0), (2, 0x3C), (15, 0x09)]))
    (fun t => t.reg 1 == 0x30 && t.reg 15 == 0x09 && t.pc == 0x0202) = true := by decide
-- A48
theorem test_xorReg : after (executeWord 0x8123 (regs [(1, 0xF0), (2, 0x3C), (15, 0x09)]))
    (fun t => t.reg 1 == 0xCC && t.reg 15 == 0x09 && t.pc == 0x0202) = true := by decide
-- A50
theorem test_ldByte : after (executeWord 0x632A (regs []))
    (fun t => t.reg 3 == 0x2A && t.pc == 0x0202) = true := by decide
-- A51
theorem test_rnd : after (executeWord 0xC10F { State.reset with rnd := 0xA7 }) (fun t => t.reg 1 == 0x07) = true := by decide

/-! ### Memory and index -/

-- M1
theorem test_ldI : after (executeWord 0xA123 State.reset) (fun t => t.i == 0x0123) = true := by decide
-- M2
theorem test_addIVx : after (executeWord 0xF11E { regs [(1, 0x10)] with i := 0x0FF8 })
    (fun t => t.i == 0x1008 && t.reg 15 == 0) = true := by decide
-- M3
theorem test_addIVx_wraps : after (executeWord 0xF11E { regs [(1, 0xFF)] with i := 0xFFFF })
    (fun t => t.i == 0x00FE) = true := by decide
-- M5
theorem test_ldFVx : after (executeWord 0xF229 (regs [(2, 0xFF)])) (fun t => t.i == 0x04FB) = true := by decide
-- M10
theorem test_ldBVx : after (executeWord 0xF333 { regs [(3, 123)] with i := 0x0FFD })
    (fun t => t.mem == [(0xFFD, 1), (0xFFE, 2), (0xFFF, 3)] && t.i == 0x0FFD) = true := by decide
-- M11
theorem test_ldBVx_fault : faults (executeWord 0xF333 { regs [(3, 123)] with i := 0x0FFE }) (.addressFault 0x1000) = true ∧
    faults (executeWord 0xF333 { regs [(3, 123)] with i := 0x1234 }) (.addressFault 0x1234) = true := by decide
-- M12
theorem test_ldMemVx : after (executeWord 0xF355
    { regs [(0, 0x11), (1, 0x22), (2, 0x33), (3, 0x44), (4, 0x55)] with i := 0x0400 })
    (fun t => t.mem == [(0x400, 0x11), (0x401, 0x22), (0x402, 0x33), (0x403, 0x44)] && t.i == 0x0400) = true := by decide
-- M16
theorem test_ldMemVx_fault : faults (executeWord 0xFF55 { risingRegs with i := 0x0FF1 }) (.addressFault 0x1000) = true := by
  decide
-- M18
theorem test_ldVxMem : after (executeWord 0xF365 (bytesAt { regs [(4, 0x99)] with i := 0x0400 } 0x400 [1, 2, 3, 4, 5]))
    (fun t => t.reg 0 == 1 && t.reg 1 == 2 && t.reg 2 == 3 && t.reg 3 == 4 && t.reg 4 == 0x99) = true := by decide
-- M20
theorem test_ldVxMem_font : after (executeWord 0xF265 State.reset)
    (fun t => t.reg 0 == 0xF0 && t.reg 1 == 0x90 && t.reg 2 == 0x90) = true := by decide

/-! ### Timers and sound -/

-- T1
theorem test_ldDtVx : after (executeWord 0xF115 (regs [(1, 0x3C)])) (fun t => t.dt == 0x3C && t.st == 0) = true := by decide
-- T3
theorem test_ldStVx : after (executeWord 0xF118 (regs [(1, 0x02)])) (fun t => t.st == 2 && t.soundOn) = true := by decide
-- T5
theorem test_ldVxDt : after (executeWord 0xF507 { State.reset with dt := 0x2A })
    (fun t => t.reg 5 == 0x2A && t.dt == 0x2A) = true := by decide
-- T4, T7
theorem test_ticks : countDown 2 1 = 1 ∧ countDown 2 3 = 0 ∧ countDown 0xFF 255 = 0 ∧ countDown 0xFF 256 = 0 := by decide

/-! ### Keys -/

-- Y1, Y4
theorem test_skp : after (executeWord 0xE19E { regs [(1, 0x05)] with pressedKey := some 5 }) (fun t => t.pc == 0x0204) = true ∧
    after (executeWord 0xE19E { regs [(1, 0x15)] with pressedKey := some 5 }) (fun t => t.pc == 0x0202) = true := by decide
-- Y5, Y7
theorem test_sknp : after (executeWord 0xE1A1 { regs [(1, 0x05)] with pressedKey := some 5 })
      (fun t => t.pc == 0x0202) = true ∧
    after (executeWord 0xE1A1 { regs [(1, 0x05)] with pressedKey := none }) (fun t => t.pc == 0x0204) = true := by decide
-- Y9
theorem test_ldVxK_waits : after (executeWord 0xF10A { regs [(1, 0x77)] with pressedKey := none })
    (fun t => t.reg 1 == 0x77 && t.pc == 0x0200) = true := by decide
-- Y11
theorem test_ldVxK : after (executeWord 0xF10A { regs [(1, 0x77)] with pressedKey := some 15 })
    (fun t => t.reg 1 == 0x0F && t.pc == 0x0202) = true := by decide

/-! ### Display: pixel `(px, py)` is number `64 * py + px` -/

-- DR12
theorem test_cls : after (executeWord 0x00E0 { regs [(15, 1)] with screen := [0, 1, 2] })
    (fun t => t.screen == [] && t.reg 15 == 1 && t.pc == 0x0202) = true := by decide
-- DR3
theorem test_drw_wraps : after (executeWord 0xD122 (bytesAt { regs [(1, 62), (2, 31)] with i := 0x0300 } 0x300 [0xF0, 0x90]))
    (fun t => t.screen == [1, 62, 1984, 1985, 2046, 2047] && t.reg 15 == 0) = true := by decide
-- DR4, its second draw
theorem test_drw_collides : after (executeWord 0xD121 (bytesAt { State.reset with i := 0x0301, screen := [0, 1] } 0x301 [0x60]))
    (fun t => t.screen == [0, 2] && t.reg 15 == 1) = true := by decide
-- DR9
theorem test_drw_fault : faults (executeWord 0xD012 (bytesAt { State.reset with i := 0x0FFF } 0xFFF [0xFF]))
    (.addressFault 0x1000) = true := by decide
-- DR6
theorem test_drw_no_rows : after (executeWord 0xD120 { regs [(15, 7)] with i := 0xFFFF })
    (fun t => t.screen == [] && t.reg 15 == 0) = true := by decide

/-! ### `SYS`, the fetch, the step -/

-- X2
theorem test_sys : faults (executeWord 0x0123 State.reset) (.decodeFault 0x0123 0x0200) = true := by decide
-- X8
theorem test_fault_pc : faults (step (bytesAt { State.reset with pc := 0x0300, run := .running } 0x300 [0xFF, 0xFF]))
    (.decodeFault 0xFFFF 0x0300) = true := by decide
-- X9, X10
theorem test_fetch_top : faults (step { State.reset with pc := 0x0FFF, run := .running }) (.addressFault 0x1000) = true ∧
    faults (step { State.reset with pc := 0x1000, run := .running }) (.addressFault 0x1000) = true := by decide
-- R57, R191: the placed word is fetched and run, and the schedule's turn follows (two ticks, key 3)
theorem test_step : after (step ({ State.reset with dt := 9, inputs := [⟨2, some 3, 0x55, []⟩] }.withFetchWord 16 0x632A))
    (fun t => t.reg 3 == 0x2A && t.pc == 0x0202 && t.dt == 7 && t.pressedKey == some 3 && t.rnd == 0x55) = true := by decide

/-! ### Reset, host, what follows a fault -/

-- HO1
theorem test_reset : State.reset.pc = 0x0200 ∧ State.reset.sp = 0x0052 ∧ State.reset.v = Vector.replicate 16 0 ∧
    State.reset.run = .paused ∧ State.reset.loaded = false := by decide
-- HO2
theorem test_load : (State.reset.hostLoad [0x12, 0x00]).1.mem = [(0x200, 0x12)] ∧
    (State.reset.hostLoad [0x12, 0x00]).1.loaded = true ∧ (State.reset.hostLoad [0x12, 0x00]).2 = true := by decide
-- HO3
theorem test_load_too_long : State.reset.hostLoad (List.replicate 3585 0) = (State.reset, false) := by
  unfold State.hostLoad
  rw [if_neg]
  rintro ⟨_, h⟩
  rw [List.length_replicate] at h
  exact absurd h (by decide)
-- HO4
theorem test_resume_unloaded : faults (step State.reset.hostResume) (.decodeFault 0x0000 0x0200) = true := by decide
-- HO5
theorem test_paused : after (step { State.reset with dt := 5, inputs := [⟨1, none, 0, []⟩] })
    (fun t => t.pc == 0x0200 && t.dt == 4) = true := by decide
-- X12
theorem test_after_fault :
    (systemStep { State.reset with run := .running, dt := 5, inputs := [⟨1, none, 0, []⟩] }).dt = 4 ∧
    (systemStep { State.reset with run := .running, inputs := [⟨1, none, 0, []⟩] }).loop =
      .faulted (.decodeFault 0x0000 0x0200) := by decide
-- R208: a stopped run takes no further step, and reset starts it over
theorem test_stop : State.reset.hostResume.hostStop.cpuEnabled = false ∧ State.reset.hostStop.hostReset.loop = .active := by
  decide
-- R68: a CALL into its own entry fetches the return address it pushed
theorem test_call_over_code : after (executeWord 0x2052 State.reset) (fun t => t.fetch.toOption == some 0x0202) = true := by
  decide
-- HO6, one call of the nine: an extended-font cell holds a return address
theorem test_call_over_font : after (executeWord 0x2300 { State.reset with sp := 0x0062 })
    (fun t => t.sp == 0x0064 && t.mem.read 0x62 == 0x02 && t.mem.read 0x63 == 0x02) = true := by decide

/-! ### The text tools: the source's examples (R95) and failures (R93) -/

theorem test_assemble : assemble (['l', 'd', ' ', 'v', '3', ',', ' ', '0', 'x', '2', 'A', ' ', '#', 'x', '\n', '\n'] ++
    ['J', 'P', ' ', '0', 'x', '2', '0', '0', '\n', 'S', 'Y', 'S', ' ', '0', 'x', '0', '0', '0']) =
    .ok [0x63, 0x2A, 0x12, 0x00, 0x00, 0x00] := by decide
theorem test_assemble_radix : ['0', 'X', '2', 'A'].length = 4 ∧ numberToken ['0', 'X', '2', 'A'] = some 42 ∧
    numberToken ['0', 'B', '1', '0', '1', '0', '1', '0'] = some 42 ∧ numberToken ['0', '5', '2'] = some 42 ∧
    numberToken ['4', '2'] = some 42 := by decide
theorem test_assemble_error : assemble ['\n', 'L', 'D', ' ', 'V', '3'] = .error (2, .tooFewOperands) ∧
    assemble ['N', 'O', 'P'] = .error (1, .unknownMnemonic) ∧
    assemble ['L', 'D', ' ', 'V', 'G', ',', '1'] = .error (1, .malformedOperand) := by decide
-- N15: a number too large for its field, and an operand to spare, make an open line
theorem test_assemble_open :
    assembleTokens ['L', 'D'] [['V', '0'], ['2', '5', '6']] = assembleOpen ['L', 'D'] [['V', '0'], ['2', '5', '6']] ∧
    assembleTokens ['L', 'D'] [['V', '0'], ['2', '5', '5']] = .ok 0x60FF ∧
    assembleTokens ['C', 'L', 'S'] [['V', '0']] = assembleOpen ['C', 'L', 'S'] [['V', '0']] := ⟨rfl, by decide, rfl⟩
theorem test_disassemble : disasmWord 0xA234 = ['L', 'D', ' ', ' ', ' ', 'I', ',', ' ', '0', 'x', '2', '3', '4'] ∧
    disasmWord 0x00E0 = ['C', 'L', 'S'] := by decide
theorem test_disassemble_fill : disasmWord 0x5121 = ['F', 'I', 'L', 'L', ' ', '0', 'x', '5', '1', '2', '1'] := by decide

/-! ### Witnesses: the hypotheses of each statement are met, each clause at a boundary of its range -/

theorem witness_DecodeOfEncode : Instr.wellFormed (.sys 0x0E1) = true ∧ Instr.wellFormed (.drw 15 15 15) = true := by decide
theorem witness_EncodeOfDecode : decodeWord 0xFF65 = .ok (.ldVxMem 15) := by decide
theorem witness_RejectedWordsAreTheTable : IllegalPattern 0x5001 ∧ ¬ IllegalPattern 0x5FF0 ∧ IllegalPattern 0xFFFF ∧
    ¬ IllegalPattern 0x0000 := by
  unfold IllegalPattern
  refine ⟨?_, ?_, ?_, ?_⟩ <;> decide
theorem witness_DecodeTakesTwoBytes : Instr.wellFormed (.sys 0xFFF) = true := by decide
theorem witness_ByteAccessBoundsAndEffect : ((-1 : Int) < 0 ∨ 4095 < (-1 : Int)) ∧ ((4096 : Int) < 0 ∨ 4095 < (4096 : Int)) ∧
    (0 ≤ (0 : Int) ∧ (0 : Int) ≤ 4095) ∧ (0 ≤ (4095 : Int) ∧ (4095 : Int) ≤ 4095) := by decide
theorem witness_WordAccessBigEndian : (0 ≤ (4094 : Int) ∧ (4094 : Int) ≤ 4094) ∧ (4095 : Int) = 4095 ∧
    ((-1 : Int) < 0 ∨ 4095 < (-1 : Int)) ∧ ((4096 : Int) < 0 ∨ 4095 < (4096 : Int)) := by decide
theorem witness_StepRunsDecodedInstruction :
    let s := State.reset.withFetchWord 16 0x1200
    s.cpuEnabled = true ∧ s.pc.toNat ≤ 0xFFE ∧
      decodeWord (wordOfBytes (s.mem.read s.pc.toNat) (s.mem.read (s.pc.toNat + 1))) = .ok (.jp 0x200) := by decide
theorem witness_StepFaultsOnIllegalWord :
    let s := State.reset.withFetchWord 16 0x5121
    s.cpuEnabled = true ∧ s.pc.toNat ≤ 0xFFE ∧
      (0x5121 : Word) = wordOfBytes (s.mem.read s.pc.toNat) (s.mem.read (s.pc.toNat + 1)) ∧ IllegalPattern 0x5121 := by
  unfold IllegalPattern
  decide
theorem witness_StepFaultsOnFetchPastTop :
    let s := { State.reset with pc := 0x0FFF, run := .running }
    s.cpuEnabled = true ∧ s.pc.toNat > 0xFFE := by decide
theorem witness_DisabledCpuTakesNoStep :
    let s := { State.reset with inputs := [⟨3, some 15, 0xFF, []⟩] }
    (s.run = .paused ∨ s.loop ≠ .active) ∧ ∀ u rest, s.inputs = u :: rest → u.host = [] := by
  refine ⟨by decide, fun u rest h => ?_⟩
  cases h
  rfl
theorem witness_TurnIsTicksThenHost : State.reset.inputs = [] ∧
    { State.reset with inputs := [⟨1, none, 0, [.reset]⟩] }.inputs = ⟨1, none, 0, [.reset]⟩ :: [] := by decide
theorem witness_CallResult : { State.reset with sp := 0x0FFE }.sp.toNat ≤ 0xFFE ∧ State.reset.sp.toNat ≤ 0xFFE := by decide
theorem witness_ReturnResult : 2 ≤ { State.reset with sp := 0x1000 }.sp.toNat ∧
    { State.reset with sp := 0x1000 }.sp.toNat ≤ 0x1000 ∧ 2 ≤ { State.reset with sp := 2 }.sp.toNat ∧
    { State.reset with sp := 2 }.sp.toNat ≤ 0x1000 := by decide
theorem witness_CallThenReturnComesBack : ∃ t, exec (.call 0x300) State.reset = .next t := ⟨_, rfl⟩
theorem witness_AddWithCarryResult : (1 : Reg) ≠ 0xF ∧ (14 : Reg) ≠ 0xF ∧ (15 : Reg) = 0xF := by decide
theorem witness_SubtractResult : (0 : Reg) ≠ 0xF ∧ (14 : Reg) ≠ 0xF ∧ (15 : Reg) = 0xF := by decide
theorem witness_SubtractNResult : (0 : Reg) ≠ 0xF ∧ (14 : Reg) ≠ 0xF ∧ (15 : Reg) = 0xF := by decide
theorem witness_ShiftRightResult : (14 : Reg) ≠ 0xF ∧ (15 : Reg) = 0xF := by decide
theorem witness_ShiftLeftResult : (14 : Reg) ≠ 0xF ∧ (15 : Reg) = 0xF := by decide
theorem witness_BcdStoreResult : { State.reset with i := 0x0FFD }.i.toNat ≤ 0xFFD ∧
    { State.reset with i := 0x0FFE }.i.toNat > 0xFFD := by decide
theorem witness_StoreRegistersResult : { State.reset with i := 0x0FFF }.i.toNat + (0 : Reg).val ≤ 0xFFF ∧
    { State.reset with i := 0x0FFF }.i.toNat + (1 : Reg).val > 0xFFF := by decide
theorem witness_LoadRegistersResult : { State.reset with i := 0x0FF0 }.i.toNat + (15 : Reg).val ≤ 0xFFF ∧
    { State.reset with i := 0x0FF1 }.i.toNat + (15 : Reg).val > 0xFFF := by decide
theorem witness_StoreThenLoadRegisters : ∃ t, exec (.ldMemVx 15) { State.reset with i := 0x0FF0 } = .next t := ⟨_, rfl⟩
theorem witness_KeySkipResults :
    (∃ k : Key, { regs [(1, 15)] with pressedKey := some 15 }.pressedKey = some k ∧ k.val = ((regs [(1, 15)]).reg 1).toNat) ∧
    ∀ k : Key, { regs [(1, 15)] with pressedKey := none }.pressedKey = some k → k.val ≠ ((regs [(1, 15)]).reg 1).toNat :=
  ⟨⟨15, by decide⟩, fun _ h => nomatch h⟩
theorem witness_KeyWaitCompletes : { State.reset with pressedKey := some 15 }.pressedKey = some 15 := by decide
theorem witness_KeyWaitStutters :
    let s := { State.reset with pressedKey := none, inputs := [⟨2, some 15, 0xFF, []⟩] }.withFetchWord 16 0xF10A
    s.pressedKey = none ∧ s.cpuEnabled = true ∧ s.fetch = .ok (encode (.ldVxK 1)) ∧
      ∀ u rest, s.inputs = u :: rest → u.host = [] := by
  refine ⟨by decide, by decide, by decide, fun u rest h => ?_⟩
  cases h
  rfl
theorem witness_DrawResult : ((0 : Fin 16).val = 0 ∨ { State.reset with i := 0xFFFF }.i.toNat + (0 : Fin 16).val ≤ 0x1000) ∧
    ((15 : Fin 16).val = 0 ∨ { State.reset with i := 0x0FF1 }.i.toNat + (15 : Fin 16).val ≤ 0x1000) := by decide
theorem witness_DrawTwiceRestoresScreen : State.reset.screen.wf ∧ (0 : Reg) ≠ 0xF ∧ (14 : Reg) ≠ 0xF ∧
    (∃ t, exec (.drw 0 14 1) State.reset = .next t) ∧ SpriteOn State.reset 0 14 1 0 0 :=
  ⟨by decide, by decide, by decide, ⟨_, rfl⟩, 0, 0, by decide⟩
theorem witness_FaultsAreExactlyTheTable : faultOf .ret { State.reset with sp := 1 } = some (.addressFault (-1)) ∧
    faultOf .ret { State.reset with sp := 2 } = none ∧ faultOf .ret { State.reset with sp := 0x1001 } =
      some (.addressFault 0x1000) := by decide
theorem witness_OnlyListedWritersWrite : (∃ t, exec (.addReg 1 2) State.reset = .next t) ∧
    writesReg (.addReg 1 2) 14 = false ∧ writesI (.addReg 1 2) = false ∧ writesSp (.addReg 1 2) = false ∧
    writesMem (.addReg 1 2) = false ∧ writesScreen (.addReg 1 2) = false := ⟨⟨_, rfl⟩, by decide⟩
theorem witness_ProgramCounterAdvance : (∃ t, exec (.seByte 1 2) State.reset = .next t) ∧ isSkip (.seByte 1 2) = true ∧
    (∃ t, exec .cls State.reset = .next t) ∧ isSkip .cls = false ∧ setsPc .cls = false :=
  ⟨⟨_, rfl⟩, by decide, ⟨_, rfl⟩, by decide⟩
theorem witness_OnlyKeyAndRandomReadTheEnvironment : readsKey .ret = false ∧ ∀ x kk, Instr.ret ≠ .rnd x kk :=
  ⟨by decide, fun _ _ h => nomatch h⟩
theorem witness_StoreSeenByNextFetch :
    (∃ t, exec (.ldMemVx 0) { State.reset with pc := 0x0FFC, i := 0x0FFE } = .next t ∧ t.pc.toNat ≤ 0xFFE) ∧
    (∃ t, exec (.ldBVx 1) { State.reset with i := 0x0201 } = .next t ∧ t.pc.toNat ≤ 0xFFE) ∧
    (∃ t, exec (.call 0x052) State.reset = .next t ∧ t.pc.toNat ≤ 0xFFE) ∧
    ∃ t, exec .cls State.reset = .next t ∧ t.pc.toNat ≤ 0xFFE :=
  ⟨⟨_, rfl, by decide⟩, ⟨_, rfl, by decide⟩, ⟨_, rfl, by decide⟩, ⟨_, rfl, by decide⟩⟩
theorem witness_FaultCommitsNothing : step State.reset.hostResume = .fault (.decodeFault 0x0000 0x0200) ∧
    ∀ u rest, State.reset.hostResume.inputs = u :: rest → u.host = [] := ⟨rfl, fun _ _ h => nomatch h⟩
theorem witness_StepKeepsInvariant : Inv State.reset ∧ (∃ t, step State.reset = .next t) ∧
    Inv (State.reset.withFetchWord 16 0x2300) ∧ ∃ t, step (State.reset.withFetchWord 16 0x2300) = .next t :=
  ⟨by decide, ⟨_, rfl⟩, by decide, ⟨_, rfl⟩⟩
theorem witness_StepFaultsAreNamed : step State.reset.hostResume = .fault (.decodeFault 0x0000 0x0200) ∧
    step { State.reset with pc := 0x0FFF, run := .running } = .fault (.addressFault 0x1000) := ⟨rfl, rfl⟩
theorem witness_HostLoadResult : State.reset.run = .paused ∧ (List.replicate 3584 (0 : Byte)).length ≤ 3584 ∧
    (State.reset.hostResume.run = .running ∨ 3584 < ([] : List Byte).length) ∧
    3584 < (List.replicate 3585 (0 : Byte)).length := by
  refine ⟨rfl, ?_, Or.inl rfl, ?_⟩ <;> rw [List.length_replicate]
  exact Nat.lt_succ_self _
theorem witness_HostControl : (State.reset.run = .paused ∨ State.reset.loop ≠ .active) ∧
    (State.reset.hostResume.hostStop.run = .paused ∨ State.reset.hostResume.hostStop.loop ≠ .active) := by decide
theorem witness_BootRunsTheRom : (State.reset.run = .paused ∨ State.reset.loop ≠ .active) ∧
    (List.replicate 3582 (0 : Byte)).length ≤ 3582 := by
  refine ⟨by decide, ?_⟩
  rw [List.length_replicate]
theorem witness_PlacedWordIsRun : decodeTableWord 16 0xFFFFF065 = some (.ldVxMem 0) := by decide

end Sys2Proof.Tests
end

section
/-!
PROOFS. The family of spec/10_state.md. The ways an instruction can complete are listed once, in `Completion`, and
`completion_of_exec` says that there are no others; the table of writers, the advance of `PC` and the invariant are
case analyses of that list.
-/

namespace Sys2Proof.Proofs

open Sys2Proof.Machine Sys2Proof.Safety Sys2Proof.Claim

/-! ### The instructions that can fault, when they complete -/

theorem commit_eq_next {r : Except Fault State} {t : State} : commit r = .next t ↔ r = .ok t := by
  cases r <;> simp [commit, raise]

/-- `RET` completes only with its stack entry inside `Mem`, and moves `SP` and `PC` alone (R100). -/
theorem exec_ret_eq_next {s t : State} (h : exec .ret s = .next t) :
    2 ≤ s.sp.toNat ∧ s.sp.toNat ≤ 0x1000 ∧
      t = (s.setSp (BitVec.ofInt 16 ((s.sp.toNat : Int) - 2))).setPc
        (s.mem.read (s.sp.toNat - 2) ++ s.mem.read (s.sp.toNat - 2 + 1)) := by
  have h := commit_eq_next.1 h
  rw [State.memRead2_eq] at h
  by_cases hr : 0 ≤ (s.sp.toNat : Int) - 2 ∧ (s.sp.toNat : Int) - 2 + 1 ≤ 0xFFF
  · rw [if_pos hr, show ((s.sp.toNat : Int) - 2).toNat = s.sp.toNat - 2 by omega] at h
    cases h
    exact ⟨by omega, by omega, rfl⟩
  · rw [if_neg hr] at h
    cases h

/-- `CALL` completes only with both bytes of the new entry inside `Mem`; it writes them, `SP` and `PC` (R102). -/
theorem exec_call_eq_next {nnn : Addr} {s t : State} (h : exec (.call nnn) s = .next t) :
    s.sp.toNat ≤ 0xFFE ∧
      t = ((s.setMem (s.mem.writeList s.sp.toNat (bytesOfWord (s.pc + 2)))).setSp (s.sp + 2)).setPc (addrWord nnn) := by
  have h := commit_eq_next.1 h
  rw [State.memWrite2_eq] at h
  by_cases hr : 0 ≤ (s.sp.toNat : Int) ∧ (s.sp.toNat : Int) + 1 ≤ 0xFFF
  · rw [if_pos hr] at h
    cases h
    exact ⟨by omega, rfl⟩
  · rw [if_neg hr] at h
    cases h

/-- A store through `I` that completes has written the whole block, all of it inside `Mem` (R62). -/
theorem writeBlock_index_eq_ok {s u : State} {bs : List Byte} (h : s.writeBlock s.indexAddr bs = .ok u) :
    (bs = [] ∨ s.i.toNat + bs.length ≤ 0x1000) ∧ u = s.setMem (s.mem.writeList s.i.toNat bs) := by
  rw [State.indexAddr, State.writeBlock_eq] at h
  split at h
  · rename_i hr
    cases h
    exact ⟨hr, rfl⟩
  · cases h

/-- `LD B, Vx` stores the digits and goes on (R143). -/
theorem exec_ldBVx_eq_next {x : Reg} {s t : State} (h : exec (.ldBVx x) s = .next t) :
    s.i.toNat + 3 ≤ 0x1000 ∧ t = (s.setMem (s.mem.writeList s.i.toNat (bcdDigits (s.reg x)))).advance := by
  have h := commit_eq_next.1 h
  split at h
  · cases h
  · rename_i u hu
    obtain ⟨hr, rfl⟩ := writeBlock_index_eq_ok hu
    cases h
    exact ⟨by simpa [bcdDigits] using hr, rfl⟩

/-- `LD [I], Vx` stores the registers and goes on (R144). -/
theorem exec_ldMemVx_eq_next {x : Reg} {s t : State} (h : exec (.ldMemVx x) s = .next t) :
    s.i.toNat + (x.val + 1) ≤ 0x1000 ∧ t = (s.setMem (s.mem.writeList s.i.toNat (s.regsUpTo x))).advance := by
  have h := commit_eq_next.1 h
  split at h
  · cases h
  · rename_i u hu
    obtain ⟨hr, rfl⟩ := writeBlock_index_eq_ok hu
    have hl := (s.regsUpTo_eq x).1
    have hne : s.regsUpTo x ≠ [] := List.ne_nil_of_length_pos (by omega)
    cases h
    exact ⟨hl ▸ hr.resolve_left hne, rfl⟩

/-- A block read through `I` that completes gives so many bytes (R62). -/
theorem readBlock_index_length {s : State} {n : Nat} {bs : List Byte} (h : s.readBlock s.indexAddr n = .ok bs) :
    bs.length = n := by
  rw [State.indexAddr, State.readBlock_eq] at h
  split at h
  · cases h
    simp
  · cases h

/-- `LD Vx, [I]` loads `x + 1` registers and goes on (R145). -/
theorem exec_ldVxMem_eq_next {x : Reg} {s t : State} (h : exec (.ldVxMem x) s = .next t) :
    ∃ bs : List Byte, bs.length = x.val + 1 ∧ t = (s.setRegsFrom 0 bs).advance := by
  have h := commit_eq_next.1 h
  split at h
  · cases h
  · rename_i bs hbs
    cases h
    exact ⟨bs, readBlock_index_length hbs, rfl⟩

/-- `DRW` blits the bytes it has read, writes the collision to `VF` and goes on (R171). -/
theorem exec_drw_eq_next {x y : Reg} {n : Fin 16} {s t : State} (h : exec (.drw x y n) s = .next t) :
    ∃ (bs : List Byte) (drawn : Screen × Bool), s.readBlock s.indexAddr n.val = .ok bs ∧
      drawn = drawSprite (s.reg x).toNat (s.reg y).toNat bs 0 (s.screen, false) ∧
      t = (s.setScreen drawn.1).writeResult regF (flagCollision drawn.2) := by
  have h := commit_eq_next.1 h
  split at h
  · cases h
  · rename_i bs hbs
    cases h
    exact ⟨bs, _, hbs, rfl, rfl⟩

/-! ### The ways an instruction can complete -/

/-- How an instruction takes state `s` to the state it completes in (R20 to R28): the pieces of state it writes, each
under the condition that lets this instruction write it. -/
inductive Completion (s : State) : Instr → State → Prop
  /-- Registers, and the next instruction: loads, arithmetic, `RND`, a key wait that ends. -/
  | registers {i : Instr} (v : Vector Byte 16)
      (hv : ∀ k : Reg, writesReg i k = false → v[k] = s.reg k) :
      Completion s i { s with v := v, pc := s.pc + 2 }
  /-- `I`, and the next instruction. -/
  | index {i : Instr} (w : Word) (hi : writesI i = true) : Completion s i (s.setI w).advance
  | delayTimer (x : Reg) (b : Byte) : Completion s (.ldDtVx x) (s.setDt b).advance
  | soundTimer (x : Reg) (b : Byte) : Completion s (.ldStVx x) (s.setSt b).advance
  /-- A block of `Mem` at `I`, and the next instruction (R143, R144). -/
  | store {i : Instr} (bs : List Byte) (hi : writesMem i = true) (hb : s.i.toNat + bs.length ≤ 0x1000) :
      Completion s i (s.setMem (s.mem.writeList s.i.toNat bs)).advance
  /-- The Screen, with registers where the instruction has a flag, and the next instruction (R170, R171). -/
  | draw {i : Instr} (v : Vector Byte 16) (scr : Screen) (hi : writesScreen i = true)
      (hv : ∀ k : Reg, writesReg i k = false → v[k] = s.reg k) (hscr : s.screen.wf → scr.wf) :
      Completion s i { s with v := v, screen := scr, pc := s.pc + 2 }
  | skip {i : Instr} (c : Bool) (hi : isSkip i = true) : Completion s i (s.skipIf c)
  | jump {i : Instr} (w : Word) (hi : setsPc i = true) : Completion s i (s.setPc w)
  | call (nnn : Addr) (hsp : s.sp.toNat ≤ 0xFFE) :
      Completion s (.call nnn)
        (((s.setMem (s.mem.writeList s.sp.toNat (bytesOfWord (s.pc + 2)))).setSp (s.sp + 2)).setPc (addrWord nnn))
  | ret (w : Word) (hlo : 2 ≤ s.sp.toNat) (hhi : s.sp.toNat ≤ 0x1000) :
      Completion s .ret ((s.setSp (BitVec.ofInt 16 ((s.sp.toNat : Int) - 2))).setPc w)

/-- Writing the result of an instruction to one register it may write. -/
theorem Completion.ofWriteResult {i : Instr} (s : State) {x : Reg} (b : Byte) (hx : writesReg i x = true) :
    Completion s i (s.writeResult x b) := by
  refine .registers (s.setReg x b).v fun k hk => ?_
  have hne : k ≠ x := by rintro rfl; simp [hx] at hk
  exact (s.setReg_reg x b k).trans (if_neg hne)

/-- The flag and the result of an instruction that may write both registers (R22, R120). -/
theorem Completion.ofFlagThenResult {i : Instr} (s : State) {x : Reg} (y : Reg) (flag result : Byte → Byte → Byte)
    (hi : ∀ k, writesReg i k = (k == x || k == regF)) :
    Completion s i (s.flagThenResult x y flag result) := by
  obtain ⟨hreg, heq⟩ := s.flagThenResult_spec x y flag result
  rw [heq]
  refine .registers _ fun k hk => ?_
  obtain ⟨hkx, hkf⟩ : k ≠ x ∧ k ≠ regF := by simpa [hi] using hk
  exact (hreg k).trans (by rw [if_neg hkx, if_neg hkf])

/-- The first `x + 1` registers, loaded by an instruction that may write them (R145). -/
theorem Completion.ofSetRegsFrom {i : Instr} (s : State) {x : Reg} {bs : List Byte} (hl : bs.length = x.val + 1)
    (hx : ∀ k ≤ x, writesReg i k = true) : Completion s i (s.setRegsFrom 0 bs).advance := by
  rw [s.setRegsFrom_frame 0 bs]
  refine .registers _ fun k hk => ?_
  have hne : ¬ k ≤ x := fun hle => by simp [hx k hle] at hk
  exact (s.setRegsFrom_reg 0 bs (by omega) k).trans (dif_neg fun hlt => hne (Fin.le_def.2 (by omega)))

/-- An instruction completes in one of the listed ways. -/
theorem completion_of_exec {i : Instr} {s t : State} (h : exec i s = .next t) : Completion s i t := by
  cases i with
  | sys nnn => cases h
  | cls => cases h; exact .draw s.v _ rfl (fun _ _ => rfl) fun _ => Screen.clear_wf
  | drw x y n =>
    obtain ⟨bs, drawn, -, hdrawn, rfl⟩ := exec_drw_eq_next h
    refine .draw (s.setReg regF (flagCollision drawn.2)).v drawn.1 rfl (fun k hk => ?_) fun hs => ?_
    · exact (s.setReg_reg _ _ k).trans (if_neg (beq_eq_false_iff_ne.1 hk))
    · rw [hdrawn]
      exact drawSprite_wf _ _ bs 0 hs
  | ret => obtain ⟨hlo, hhi, rfl⟩ := exec_ret_eq_next h; exact .ret _ hlo hhi
  | call nnn => obtain ⟨hsp, rfl⟩ := exec_call_eq_next h; exact .call nnn hsp
  | jp nnn => cases h; exact .jump _ rfl
  | jpV0 nnn => cases h; exact .jump _ rfl
  | seByte x kk => cases h; exact .skip _ rfl
  | sneByte x kk => cases h; exact .skip _ rfl
  | seReg x y => cases h; exact .skip _ rfl
  | sneReg x y => cases h; exact .skip _ rfl
  | skp x => cases h; exact .skip _ rfl
  | sknp x => cases h; exact .skip _ rfl
  | ldByte x kk => cases h; exact .ofWriteResult s _ (beq_self_eq_true x)
  | addByte x kk => cases h; exact .ofWriteResult s _ (beq_self_eq_true x)
  | ldReg x y => cases h; exact .ofWriteResult s _ (beq_self_eq_true x)
  | orReg x y => cases h; exact .ofWriteResult s _ (beq_self_eq_true x)
  | andReg x y => cases h; exact .ofWriteResult s _ (beq_self_eq_true x)
  | xorReg x y => cases h; exact .ofWriteResult s _ (beq_self_eq_true x)
  | rnd x kk => cases h; exact .ofWriteResult s _ (beq_self_eq_true x)
  | ldVxDt x => cases h; exact .ofWriteResult s _ (beq_self_eq_true x)
  | ldVxK x =>
    cases h
    split
    · exact .jump s.pc rfl
    · exact .ofWriteResult s _ (beq_self_eq_true x)
  | addReg x y => cases h; exact .ofFlagThenResult s y _ _ fun _ => rfl
  | subReg x y => cases h; exact .ofFlagThenResult s y _ _ fun _ => rfl
  | subnReg x y => cases h; exact .ofFlagThenResult s y _ _ fun _ => rfl
  | shr x y => cases h; exact .ofFlagThenResult s x _ _ fun _ => rfl
  | shl x y => cases h; exact .ofFlagThenResult s x _ _ fun _ => rfl
  | ldI nnn => cases h; exact .index _ rfl
  | addIVx x => cases h; exact .index _ rfl
  | ldFVx x => cases h; exact .index _ rfl
  | ldDtVx x => cases h; exact .delayTimer x _
  | ldStVx x => cases h; exact .soundTimer x _
  | ldBVx x => obtain ⟨hr, rfl⟩ := exec_ldBVx_eq_next h; exact .store _ rfl hr
  | ldMemVx x =>
    obtain ⟨hr, rfl⟩ := exec_ldMemVx_eq_next h
    exact .store _ rfl ((s.regsUpTo_eq x).1 ▸ hr)
  | ldVxMem x =>
    obtain ⟨bs, hl, rfl⟩ := exec_ldVxMem_eq_next h
    exact .ofSetRegsFrom s hl fun k hk => decide_eq_true hk

/-! ### The invariant -/

/-- `SP` after a pop: 2 lower (R100). -/
theorem toNat_ofInt_sub_two {w : Word} (h : 2 ≤ w.toNat) :
    (BitVec.ofInt 16 ((w.toNat : Int) - 2)).toNat = w.toNat - 2 := by
  have := w.isLt
  rw [BitVec.toNat_ofInt]
  omega

/-- An instruction that completes keeps the invariant; only `CALL` and `RET` move `SP`, by one entry each (R26). -/
theorem Completion.inv {i : Instr} {s t : State} (h : Completion s i t) (hs : Inv s) : Inv t := by
  obtain ⟨hmem, hscreen, heven, hmax⟩ := hs
  cases h with
  | registers | index | delayTimer | soundTimer | skip | jump => exact ⟨hmem, hscreen, heven, hmax⟩
  | store bs hi hb => exact ⟨Memory.writeList_wf hmem hb, hscreen, heven, hmax⟩
  | draw v scr hi hv hscr => exact ⟨hmem, hscr hscreen, heven, hmax⟩
  | call nnn hsp =>
    have hsp' : (s.sp + 2).toNat = s.sp.toNat + 2 := by bv_omega
    have hb : s.sp.toNat + (bytesOfWord (s.pc + 2)).length ≤ Config.memSize := Nat.add_le_add_right hsp 2
    refine ⟨Memory.writeList_wf hmem hb, hscreen, ?_, ?_⟩ <;> rw [State.setPc_sp, State.setSp_sp] <;> omega
  | ret w hlo hhi =>
    have hsp' := toNat_ofInt_sub_two hlo
    refine ⟨hmem, hscreen, ?_, ?_⟩ <;> rw [State.setPc_sp, State.setSp_sp] <;> omega

/-- A CPU step that completes has executed an instruction (R191). -/
theorem cpuStep_eq_next {s t : State} (h : cpuStep s = .next t) : ∃ i, exec i s = .next t := by
  cases hf : s.fetch with
  | error f => rw [cpuStep_of_fetch_error hf] at h; cases h
  | ok op =>
    rw [cpuStep_of_fetch_ok hf] at h
    cases hd : decodeWord op with
    | error r => rw [executeWord_of_decode_error s hd] at h; cases h
    | ok i => exact ⟨i, executeWord_of_decode_ok s hd ▸ h⟩

/-- A step that answers is a turn of the environment, after an instruction if the CPU is enabled (R191, R193). -/
theorem step_eq_next {s t : State} (h : step s = .next t) :
    (s.cpuEnabled = false ∧ t = s.turn) ∨ (s.cpuEnabled = true ∧ ∃ i u, exec i s = .next u ∧ t = u.turn) := by
  cases he : s.cpuEnabled with
  | false => rw [step_of_disabled he] at h; cases h; exact .inl ⟨rfl, rfl⟩
  | true =>
    rw [step_of_enabled he] at h
    obtain ⟨u, hu, rfl⟩ := thenTurn_eq_next.1 h
    obtain ⟨i, hi⟩ := cpuStep_eq_next hu
    exact .inr ⟨rfl, i, u, hi, rfl⟩

/-- Settles O53: the instruction executed keeps the invariant, and so does the turn after it. -/
theorem stepKeepsInvariant : Obligations.StepKeepsInvariant := by
  intro s t hs h
  obtain ⟨-, rfl⟩ | ⟨-, i, u, hu, rfl⟩ := step_eq_next h
  · exact State.turn_inv hs
  · exact State.turn_inv ((completion_of_exec hu).inv hs)

/-- Settles O52: the lists of the reset state are empty, and `SP` is `0x0052`. -/
theorem resetMeetsInvariant : Obligations.ResetMeetsInvariant :=
  ⟨⟨List.Pairwise.nil, fun _ h => absurd h List.not_mem_nil⟩, Screen.clear_wf, by decide, by decide⟩

/-! ### The table of writers and the advance of `PC` -/

/-- Settles O47: each way of completing writes only what its instruction is listed for. -/
theorem onlyListedWritersWrite : Obligations.OnlyListedWritersWrite := by
  intro i s t h
  cases completion_of_exec h with
  | registers v hv => exact ⟨hv, by simp⟩
  | index w hi => simp [hi]
  | delayTimer x b => simp
  | soundTimer x b => simp
  | store bs hi hb => simp [hi]
  | draw v scr hi hv hscr => exact ⟨hv, by simp [hi]⟩
  | skip c hi => simp
  | jump w hi => simp
  | call nnn hsp => simp [show writesSp (.call nnn) = true from rfl, show writesMem (.call nnn) = true from rfl]
  | ret w hlo hhi => simp [show writesSp .ret = true from rfl]

/-- No instruction is both a skip and one with a `PC` rule of its own (R24). -/
theorem isSkip_of_setsPc {i : Instr} (h : setsPc i = true) : isSkip i = false := by
  cases i with
  | jp | jpV0 | call | ret | ldVxK => rfl
  | _ => cases h

/-- Settles O48: an instruction that is no skip, jump, call or return completes at the next one. -/
theorem programCounterAdvance : Obligations.ProgramCounterAdvance := by
  intro i s t h
  cases completion_of_exec h with
  | registers | index | delayTimer | soundTimer | store | draw => exact ⟨fun _ => .inl rfl, fun _ _ => rfl⟩
  | skip c hi => cases c <;> simp [hi]
  | jump w hi => simp [hi, isSkip_of_setsPc hi]
  | call | ret => exact ⟨fun hskip => (nomatch hskip), fun _ hpc => (nomatch hpc)⟩

/-! ### The timers and a disabled CPU -/

theorem cpuEnabled_eq_false {s : State} (h : s.run = .paused ∨ s.loop ≠ .active) : s.cpuEnabled = false := by
  rw [← Bool.not_eq_true, State.cpuEnabled_iff]
  rintro ⟨hrun, hloop⟩
  rcases h with h | h
  · rw [h] at hrun; cases hrun
  · exact h hloop

/-- Settles O11: the step of a disabled CPU is the turn, and a turn with no host operation has the frame of
`State.turn_frame`. -/
theorem disabledCpuTakesNoStep : Obligations.DisabledCpuTakesNoStep :=
  fun s h => ⟨step_of_disabled (cpuEnabled_eq_false h), s.turn_frame⟩

/-- Settles O13: each timer is `tickDown` of itself. -/
theorem tickNeverBelowZero : Obligations.TickNeverBelowZero :=
  fun s => ⟨tickDown_toNat s.dt, tickDown_toNat s.st, rfl⟩

/-! ### Reset -/

/-- Memory with no cell listed reads as zero above the font region (R38). -/
theorem read_nil_above_fonts {a : Nat} (h : 0x64 ≤ a) : Memory.read [] a = 0 := by
  have hb : resetByte a = some 0 := by
    unfold resetByte Config.fontExtBase Config.fontEnd
    rw [if_neg (by omega), if_neg (by omega)]
  simp [Memory.read, Memory.lookup, unlisted, hb]

/-- Settles O55: memory has no cell listed, so it reads as the reset contents; the rest are the fields of the reset
state. -/
theorem resetLeaves : Obligations.ResetLeaves := by
  have hv : ∀ k, State.reset.reg k = 0 := fun k => by simp [State.reg, State.reset, resetV]
  exact ⟨rfl, rfl, fun a ha _ => read_nil_above_fonts ha, fun px py _ _ => Screen.getPixel_clear px py, hv,
    rfl, rfl, rfl, rfl, rfl, rfl, rfl, rfl⟩

end Sys2Proof.Proofs
end

section
/-!
PROOFS. The family of spec/20_memory.md: the access primitives, the fetch and what a step does with the word fetched,
every way a step can fault, and the host's `load`.
-/

namespace Sys2Proof.Proofs

open Sys2Proof.Machine Sys2Proof.Safety Sys2Proof.Claim

/-! ### The access primitives (R53 to R56) -/

/-- Settles O6: the two cases of `State.memRead1_eq` and `State.memWrite1_eq`, with `Memory.read_write` for the cells. -/
theorem byteAccessBoundsAndEffect : Obligations.ByteAccessBoundsAndEffect := by
  intro s a b
  rw [s.memRead1_eq, s.memWrite1_eq]
  constructor
  · intro hout
    rw [if_neg (by omega), if_neg (by omega)]
    exact ⟨rfl, rfl⟩
  · intro hin
    rw [if_pos hin, if_pos hin]
    exact ⟨rfl, _, rfl, rfl, s.mem.read_write a.toNat b⟩

/-- Two bytes put together, the first the more significant (R54, R57). -/
theorem toNat_wordOfBytes (hi lo : Byte) : (wordOfBytes hi lo).toNat = hi.toNat * 256 + lo.toNat := by
  have hlo : lo.toNat < 2 ^ 8 := lo.isLt
  rw [wordOfBytes, BitVec.toNat_append, ← Nat.shiftLeft_add_eq_or_of_lt hlo, Nat.shiftLeft_eq]

/-- A word written and read again at the same address (R54, R56). -/
theorem memRead2_setMem_write (s : State) {a : Int} (w : Word) (h : 0 ≤ a ∧ a + 1 ≤ 0xFFF) :
    (s.setMem ((s.mem.write a.toNat (w.extractLsb' 8 8)).write (a.toNat + 1) (w.extractLsb' 0 8))).memRead2 a = .ok w := by
  rw [State.memRead2_eq, if_pos h]
  simpa [wordOfBytes] using wordOfBytes_bytesOfWord w

/-- Settles O7: the cases of `State.memRead2_eq` and `State.memWrite2_eq`. -/
theorem wordAccessBigEndian : Obligations.WordAccessBigEndian := by
  intro s a w
  rw [s.memRead2_eq, s.memWrite2_eq]
  refine ⟨fun hin => ?_, fun htop => ?_, fun hout => ?_⟩
  · have h : 0 ≤ a ∧ a + 1 ≤ 0xFFF := by omega
    rw [if_pos h, if_pos h]
    refine ⟨⟨_, rfl, toNat_wordOfBytes _ _⟩, _, rfl, memRead2_setMem_write s w h, rfl, fun c hc hc' => ?_⟩
    rw [State.setMem_mem, Memory.read_write, if_neg hc', Memory.read_write, if_neg hc]
  · subst htop
    exact ⟨rfl, rfl⟩
  · rw [if_neg (by omega), if_neg (by omega), if_neg (by omega)]
    exact ⟨rfl, rfl⟩

/-! ### The fetch and the step (R58, R191) -/

/-- The step of an enabled CPU whose fetched word decodes (R191). -/
theorem step_of_fetch_decode {s : State} {op : Word} {i : Instr} (he : s.cpuEnabled = true) (hf : s.fetch = .ok op)
    (hd : decodeWord op = .ok i) : step s = thenTurn (exec i s) := by
  rw [step_of_enabled he, cpuStep_of_fetch_ok hf, executeWord_of_decode_ok s hd]

theorem fetch_of_pc_le {s : State} (h : s.pc.toNat ≤ 0xFFE) :
    s.fetch = .ok (wordOfBytes (s.mem.read s.pc.toNat) (s.mem.read (s.pc.toNat + 1))) := by
  rw [s.fetch_eq, if_pos h]
  rfl

theorem fetch_of_pc_gt {s : State} (h : 0xFFE < s.pc.toNat) :
    s.fetch = .error (.addressFault (if s.pc.toNat = 0xFFF then 0x1000 else (s.pc.toNat : Int))) := by
  have htop : s.pc.toNat ≤ 0xFFF ↔ s.pc.toNat = 0xFFF := by omega
  rw [s.fetch_eq, if_neg (by omega)]
  simp only [htop]

/-- Settles O8: below the top of `Mem` the fetch gives the two bytes at `PC`. -/
theorem stepRunsDecodedInstruction : Obligations.StepRunsDecodedInstruction := by
  intro s i he hpc hd
  rw [step_of_fetch_decode he (fetch_of_pc_le hpc) hd]
  rfl

/-- Settles O10: the fault of the fetch is the fault of the step. -/
theorem stepFaultsOnFetchPastTop : Obligations.StepFaultsOnFetchPastTop := by
  intro s he hpc
  rw [step_of_enabled he, cpuStep_of_fetch_error (fetch_of_pc_gt hpc)]
  rfl

/-! ### An opcode placed for the fetch (R57, R58) -/

theorem cpuEnabled_readyToRun (s : State) (op : Word) : (s.readyToRun op).cpuEnabled = true :=
  State.cpuEnabled_iff.2 ⟨rfl, rfl⟩

/-- The fetch after `readyToRun` reads the opcode placed. -/
theorem fetch_readyToRun {s : State} (op : Word) (h : s.pc.toNat ≤ 0xFFE) : (s.readyToRun op).fetch = .ok op := by
  have hplace : s.placeOpcode op = s.setMem (s.mem.writeList s.pc.toNat (bytesOfWord op)) :=
    if_pos (show s.pc.toNat + 1 < 4096 by omega)
  have hpc : (s.readyToRun op).pc = s.pc := by rw [State.readyToRun, hplace]; rfl
  have hmem : (s.readyToRun op).mem = s.mem.writeList s.pc.toNat (bytesOfWord op) := by
    rw [State.readyToRun, hplace]; rfl
  rw [fetch_of_pc_le (hpc ▸ h), hpc, hmem, Memory.read_writeList, Memory.read_writeList]
  simpa [bytesOfWord] using wordOfBytes_bytesOfWord op

/-- What the table reads from an opcode-table word is what the word decodes to. -/
theorem decodeTableWord_eq_some {nbits w : Nat} {i : Instr} (h : decodeTableWord nbits w = some i) :
    decodeWord (tableWord nbits w) = .ok i := by
  rw [decodeTableWord, bytesOfWord, decode, wordOfBytes_bytesOfWord] at h
  cases hd : decodeWord (tableWord nbits w) with
  | ok j => rw [hd] at h; cases h; rfl
  | error r => rw [hd] at h; cases h

/-- Settles O60: the word placed at the reset `PC` is the word fetched. -/
theorem placedWordIsRun : Obligations.PlacedWordIsRun := by
  intro w i hd
  have hpc : State.reset.pc.toNat ≤ 0xFFE := by decide
  exact step_of_fetch_decode (cpuEnabled_readyToRun _ _) (fetch_readyToRun _ hpc) (decodeTableWord_eq_some hd)

/-! ### The words that have no execution (R87)

The table of R87 speaks of a word's number, the decoder of its fields; the sub-decoder of each command nibble is inverted
once, for the words it rejects and for `SYS`. -/

theorem fieldC_toNat (op : Word) : (fieldC op).toNat = op.toNat / 4096 := by
  have hop : op.toNat < 2 ^ 16 := op.isLt
  rw [fieldC, BitVec.extractLsb'_toNat, Nat.shiftRight_eq_div_pow]
  omega

theorem fieldN_val (op : Word) : (fieldN op).val = op.toNat % 16 :=
  BitVec.extractLsb'_toNat 0 4 op

theorem fieldKk_toNat (op : Word) : (fieldKk op).toNat = op.toNat % 256 :=
  BitVec.extractLsb'_toNat 0 8 op

theorem decode0_ne_error (op : Word) (r : Reject) : decode0 op ≠ .error r := by
  unfold decode0
  split
  · nofun
  · split <;> nofun

theorem decode5_eq_error {op : Word} {r : Reject} (h : decode5 op = .error r) : op.toNat % 16 ≠ 0 := by
  unfold decode5 at h
  split at h
  · cases h
  · rename_i hn
    exact fun e => hn (Fin.ext ((fieldN_val op).trans e))

theorem decode9_eq_error {op : Word} {r : Reject} (h : decode9 op = .error r) : op.toNat % 16 ≠ 0 := by
  unfold decode9 at h
  split at h
  · cases h
  · rename_i hn
    exact fun e => hn (Fin.ext ((fieldN_val op).trans e))

theorem decode8_eq_error {op : Word} {r : Reject} (h : decode8 op = .error r) :
    op.toNat % 16 ∈ [8, 9, 0xA, 0xB, 0xC, 0xD, 0xF] := by
  unfold decode8 at h
  rw [fieldN_val] at h
  split at h
  case h_10 =>
    simp only [imp_false, List.mem_cons, List.not_mem_nil, or_false] at *
    omega
  all_goals cases h

/-- The second level of dispatch on `op[7:0]`, as a test of a number (R85). -/
theorem fieldKk_eq_iff (op : Word) (ff : Byte) : fieldKk op = ff ↔ op.toNat % 256 = ff.toNat := by
  rw [← fieldKk_toNat, BitVec.toNat_inj]

theorem decodeE_eq_error {op : Word} {r : Reject} (h : decodeE op = .error r) : op.toNat % 256 ∉ [0x9E, 0xA1] := by
  unfold decodeE at h
  simp only [fieldKk_eq_iff] at h
  intro hff
  simp only [List.mem_cons, List.not_mem_nil, or_false] at hff
  rcases hff with e | e <;> simp [e] at h

theorem decodeF_eq_error {op : Word} {r : Reject} (h : decodeF op = .error r) :
    op.toNat % 256 ∉ [0x07, 0x0A, 0x15, 0x18, 0x1E, 0x29, 0x33, 0x55, 0x65] := by
  unfold decodeF at h
  simp only [fieldKk_eq_iff] at h
  intro hff
  simp only [List.mem_cons, List.not_mem_nil, or_false] at hff
  rcases hff with e | e | e | e | e | e | e | e | e <;> simp [e] at h

/-- A word the decoder rejects is in the table of R87. -/
theorem illegalPattern_of_decodeWord_error {op : Word} {r : Reject} (h : decodeWord op = .error r) :
    IllegalPattern op := by
  have hop : op.toNat < 2 ^ 16 := op.isLt
  unfold decodeWord at h
  rw [fieldC_toNat] at h
  split at h
  case h_1 => exact absurd h (decode0_ne_error op r)
  case h_6 hc => exact .inl ⟨hc, decode5_eq_error h⟩
  case h_9 hc => exact .inr (.inl ⟨hc, decode8_eq_error h⟩)
  case h_10 hc => exact .inr (.inr (.inl ⟨hc, decode9_eq_error h⟩))
  case h_15 hc => exact .inr (.inr (.inr (.inl ⟨hc, decodeE_eq_error h⟩)))
  case h_16 =>
    have hc : op.toNat / 4096 = 15 := by simp only [imp_false] at *; omega
    exact .inr (.inr (.inr (.inr ⟨hc, decodeF_eq_error h⟩)))
  all_goals cases h

theorem decode0_eq_sys {op : Word} {nnn : Addr} (h : decode0 op = .ok (.sys nnn)) :
    op ≠ 0x00E0 ∧ op ≠ 0x00EE ∧ nnn = fieldNnn op := by
  unfold decode0 at h
  split at h
  · cases h
  · split at h
    · cases h
    · cases h; exact ⟨‹_›, ‹_›, rfl⟩

theorem decode5_ne_sys (op : Word) (nnn : Addr) : decode5 op ≠ .ok (.sys nnn) := by
  unfold decode5
  split <;> nofun

theorem decode8_ne_sys (op : Word) (nnn : Addr) : decode8 op ≠ .ok (.sys nnn) := by
  unfold decode8
  split <;> nofun

theorem decode9_ne_sys (op : Word) (nnn : Addr) : decode9 op ≠ .ok (.sys nnn) := by
  unfold decode9
  split <;> nofun

theorem decodeE_ne_sys (op : Word) (nnn : Addr) : decodeE op ≠ .ok (.sys nnn) := by
  unfold decodeE
  repeat' split
  all_goals nofun

theorem decodeF_ne_sys (op : Word) (nnn : Addr) : decodeF op ≠ .ok (.sys nnn) := by
  unfold decodeF
  repeat' split
  all_goals nofun

/-- A word that decodes to `SYS` has command nibble 0 and is its address field; it is neither fixed pattern (R85). -/
theorem decodeWord_eq_sys {op : Word} {nnn : Addr} (h : decodeWord op = .ok (.sys nnn)) :
    op.toNat < 0x1000 ∧ op ≠ 0x00E0 ∧ op ≠ 0x00EE ∧ addrWord nnn = op := by
  unfold decodeWord at h
  rw [fieldC_toNat] at h
  split at h
  case h_1 hc =>
    obtain ⟨hcls, hret, rfl⟩ := decode0_eq_sys h
    have hlt : op.toNat < 0x1000 := by omega
    refine ⟨hlt, hcls, hret, BitVec.eq_of_toNat_eq ?_⟩
    rw [addrWord, BitVec.toNat_setWidth, fieldNnn, BitVec.extractLsb'_toNat, Nat.shiftRight_zero]
    omega
  case h_6 => exact absurd h (decode5_ne_sys op nnn)
  case h_9 => exact absurd h (decode8_ne_sys op nnn)
  case h_10 => exact absurd h (decode9_ne_sys op nnn)
  case h_15 => exact absurd h (decodeE_ne_sys op nnn)
  case h_16 => exact absurd h (decodeF_ne_sys op nnn)
  all_goals cases h

/-! ### The faults of an instruction and of a step (R220, R221) -/

/-- An `AddressFault` at an address outside `Mem` (R52, R220). -/
def OutsideMem (f : Fault) : Prop := ∃ a, f = .addressFault a ∧ (a < 0 ∨ 4095 < a)

/-! One access each: `RET` and the fetch, `CALL`, the loads through `I`, the stores through `I`. -/

theorem memRead2_eq_error {s : State} {a : Int} {f : Fault} (h : s.memRead2 a = .error f) : OutsideMem f := by
  rw [s.memRead2_eq] at h
  split at h
  · cases h
  · cases h
    exact ⟨_, rfl, by split <;> omega⟩

theorem memWrite2_eq_error {s : State} {a : Int} {w : Word} {f : Fault} (h : s.memWrite2 a w = .error f) :
    OutsideMem f := by
  rw [s.memWrite2_eq] at h
  split at h
  · cases h
  · cases h
    exact ⟨_, rfl, by split <;> omega⟩

theorem readBlock_index_eq_error {s : State} {n : Nat} {f : Fault} (h : s.readBlock s.indexAddr n = .error f) :
    OutsideMem f := by
  rw [State.indexAddr, State.readBlock_eq] at h
  split at h
  · cases h
  · cases h
    exact ⟨_, rfl, by omega⟩

theorem writeBlock_index_eq_error {s : State} {bs : List Byte} {f : Fault}
    (h : s.writeBlock s.indexAddr bs = .error f) : OutsideMem f := by
  rw [State.indexAddr, State.writeBlock_eq] at h
  split at h
  · cases h
  · cases h
    exact ⟨_, rfl, by omega⟩

/-- An instruction that ends in `commit` faults with the fault of its computation (R225). -/
theorem commit_eq_fault {r : Except Fault State} {f : Fault} : commit r = .fault f ↔ r = .error f := by
  cases r <;> simp [commit, raise]

/-- An instruction faults with an address outside `Mem`, or it is `SYS` (R223). -/
theorem exec_eq_fault {i : Instr} {s : State} {f : Fault} (h : exec i s = .fault f) :
    OutsideMem f ∨ ∃ nnn, i = .sys nnn ∧ f = .decodeFault (addrWord nnn) s.pc := by
  cases i with
  | sys nnn => cases h; exact .inr ⟨nnn, rfl, rfl⟩
  | ret =>
    have h := commit_eq_fault.1 h
    split at h <;> cases h
    exact .inl (memRead2_eq_error ‹_›)
  | call nnn =>
    have h := commit_eq_fault.1 h
    split at h <;> cases h
    exact .inl (memWrite2_eq_error ‹_›)
  | drw | ldVxMem =>
    have h := commit_eq_fault.1 h
    split at h <;> cases h
    exact .inl (readBlock_index_eq_error ‹_›)
  | ldBVx | ldMemVx =>
    have h := commit_eq_fault.1 h
    split at h <;> cases h
    exact .inl (writeBlock_index_eq_error ‹_›)
  | _ => cases h

/-- A CPU step faults at its fetch, at its decode or in its instruction, in this order (R225). -/
theorem cpuStep_eq_fault {s : State} {f : Fault} (h : cpuStep s = .fault f) :
    s.fetch = .error f ∨ ∃ op, s.fetch = .ok op ∧
      ((∃ r, decodeWord op = .error r ∧ f = .decodeFault op s.pc) ∨ ∃ i, decodeWord op = .ok i ∧ exec i s = .fault f) := by
  cases hf : s.fetch with
  | error g => rw [cpuStep_of_fetch_error hf] at h; cases h; exact .inl rfl
  | ok op =>
    rw [cpuStep_of_fetch_ok hf] at h
    refine .inr ⟨op, rfl, ?_⟩
    cases hd : decodeWord op with
    | error r => rw [executeWord_of_decode_error s hd] at h; cases h; exact .inl ⟨r, rfl, rfl⟩
    | ok i => rw [executeWord_of_decode_ok s hd] at h; exact .inr ⟨i, rfl, h⟩

/-- A step faults only where its CPU step does; the environment's turn raises no fault (R226). -/
theorem step_eq_fault {s : State} {f : Fault} (h : step s = .fault f) : cpuStep s = .fault f := by
  cases he : s.cpuEnabled with
  | false => rw [step_of_disabled he] at h; cases h
  | true => rw [step_of_enabled he] at h; exact thenTurn_eq_fault.1 h

/-- A word fetched is the two bytes at `PC` (R58). -/
theorem fetch_eq_ok {s : State} {op : Word} (h : s.fetch = .ok op) :
    op = wordOfBytes (s.mem.read s.pc.toNat) (s.mem.read (s.pc.toNat + 1)) := by
  rw [s.fetch_eq] at h
  split at h
  · cases h; rfl
  · cases h

/-- Settles O54: the fault is the fetch's, the decoder's or the instruction's. -/
theorem stepFaultsAreNamed : Obligations.StepFaultsAreNamed := by
  intro s f h
  obtain hf | ⟨op, hf, ⟨r, hd, rfl⟩ | ⟨i, hd, hx⟩⟩ := cpuStep_eq_fault (step_eq_fault h)
  · exact .inl (memRead2_eq_error hf)
  · exact .inr ⟨op, rfl, fetch_eq_ok hf, .inl (illegalPattern_of_decodeWord_error hd)⟩
  · obtain ha | ⟨nnn, rfl, rfl⟩ := exec_eq_fault hx
    · exact .inl ha
    · obtain ⟨hlt, hcls, hret, hop⟩ := decodeWord_eq_sys hd
      exact .inr ⟨op, by rw [hop], fetch_eq_ok hf, .inr ⟨hlt, hcls, hret⟩⟩

/-! ### The host's `load` (R71, R206) -/

theorem hostLoad_accepted {s : State} {rom : List Byte} (hrun : s.run = .paused) (hlen : rom.length ≤ 3584) :
    s.hostLoad rom = ({ s with mem := s.mem.writeList 0x200 rom, loaded := true }, true) :=
  if_pos ⟨hrun, hlen⟩

theorem hostLoad_refused {s : State} {rom : List Byte} (h : s.run = .running ∨ 3584 < rom.length) :
    s.hostLoad rom = (s, false) := by
  refine if_neg fun ⟨hrun, hlen⟩ => ?_
  rcases h with h | h
  · rw [h] at hrun; cases hrun
  · exact absurd hlen (Nat.not_le.2 h)

/-- Settles O56: `Memory.read_writeList` says what the cells hold after the ROM is written. -/
theorem hostLoadResult : Obligations.HostLoadResult := by
  intro s rom
  refine ⟨fun hrun hlen => ?_, hostLoad_refused⟩
  rw [hostLoad_accepted hrun hlen]
  refine ⟨rfl, fun k hk => ?_, fun a ha => ?_, rfl⟩
  · rw [Memory.read_writeList, dif_pos (by omega)]
    simp
  · rw [Memory.read_writeList, dif_neg (by omega)]

end Sys2Proof.Proofs
end

section
/-!
PROOFS. The family of spec/30_encoding.md: the two round trips of the decoder and the encoder, the two bytes of an
instruction, and what the fetch after a store reads.
-/

namespace Sys2Proof.Proofs

open Sys2Proof.Machine Sys2Proof.Claim

/-! ### Decoding an encoding (R84, R85)

`fieldC`, `fieldX`, `fieldY`, `fieldN`, `fieldKk` and `fieldNnn` read back what a format was built from (the simp lemmas
of Laws/Decode.lean); the commands 0, 5, 8, 9, 0xE and 0xF have a second level. -/

/-- `SYS` at any address but those of the two fixed patterns, which are `formNnn 0x0` of those addresses (R85). -/
theorem decode0_formNnn {nnn : Addr} (hcls : nnn ≠ 0x0E0#12) (hret : nnn ≠ 0x0EE#12) :
    decode0 (formNnn 0x0 nnn) = .ok (.sys nnn) := by
  have hne : ∀ {a : Addr}, nnn ≠ a → formNnn 0x0 nnn ≠ formNnn 0x0 a := fun ha e =>
    ha (by simpa using congrArg fieldNnn e)
  have hfall : decode0 (formNnn 0x0 nnn) = .ok (.sys (fieldNnn (formNnn 0x0 nnn))) :=
    (if_neg (hne hcls)).trans (if_neg (hne hret))
  rw [hfall, fieldNnn_formNnn]

/-- Settles O2: each constructor's format gives back its command nibble, its function code and its fields. -/
theorem decodeOfEncode : Obligations.DecodeOfEncode := by
  intro i hwf
  cases i with
  | sys nnn =>
    obtain ⟨hcls, hret⟩ : nnn ≠ 0x0E0#12 ∧ nnn ≠ 0x0EE#12 := by simpa [Instr.wellFormed] using hwf
    simpa [encode, decodeWord] using decode0_formNnn hcls hret
  | cls | ret => rfl
  | jp | call | ldI | jpV0 | seByte | sneByte | ldByte | addByte | rnd | drw => simp [encode, decodeWord]
  | seReg => simp [encode, decodeWord, decode5]
  | sneReg => simp [encode, decodeWord, decode9]
  | ldReg | orReg | andReg | xorReg | addReg | subReg | shr | subnReg | shl =>
    simp [encode, decodeWord, decode8]
  | skp | sknp => simp [encode, decodeWord, decodeE]
  | ldVxDt | ldVxK | ldDtVx | ldStVx | addIVx | ldFVx | ldBVx | ldMemVx | ldVxMem =>
    simp [encode, decodeWord, decodeF]

/-! ### Encoding what was decoded (R82, R85)

A word of a known command nibble, and function code where its row has one, is the format of the fields read off it. -/

theorem formNnn_eq {op : Word} {c : BitVec 4} (hc : fieldC op = c) : formNnn c (fieldNnn op) = op :=
  hc ▸ formNnn_fields op

theorem formXkk_eq {op : Word} {c : BitVec 4} {kk : Byte} (hc : fieldC op = c) (hkk : fieldKk op = kk) :
    formXkk c (fieldX op) kk = op :=
  hc ▸ hkk ▸ formXkk_fields op

theorem formXyn_eq {op : Word} {c : BitVec 4} {n : Fin 16} (hc : fieldC op = c) (hn : fieldN op = n) :
    formXyn c (fieldX op) (fieldY op) n = op :=
  hc ▸ hn ▸ formXyn_fields op

/-- A word that means a well-formed instruction, and is its opcode. -/
def IsOpcodeOf (op : Word) (i : Instr) : Prop := i.wellFormed = true ∧ encode i = op

theorem decode0_eq_ok {op : Word} {i : Instr} (hc : fieldC op = 0x0) (h : decode0 op = .ok i) : IsOpcodeOf op i := by
  unfold decode0 at h
  split at h
  · cases h; exact ⟨rfl, Eq.symm ‹_›⟩
  · split at h
    · cases h; exact ⟨rfl, Eq.symm ‹_›⟩
    · rename_i hcls hret
      cases h
      have hne : ∀ {a : Addr}, op ≠ formNnn 0x0 a → fieldNnn op ≠ a := fun hop e =>
        hop (e ▸ (formNnn_eq hc).symm)
      exact ⟨by simpa [Instr.wellFormed] using ⟨hne hcls, hne hret⟩, formNnn_eq hc⟩

theorem decode5_eq_ok {op : Word} {i : Instr} (hc : fieldC op = 0x5) (h : decode5 op = .ok i) : IsOpcodeOf op i := by
  unfold decode5 at h
  split at h <;> cases h
  exact ⟨rfl, formXyn_eq hc ‹_›⟩

theorem decode8_eq_ok {op : Word} {i : Instr} (hc : fieldC op = 0x8) (h : decode8 op = .ok i) : IsOpcodeOf op i := by
  unfold decode8 at h
  split at h <;> cases h
  all_goals exact ⟨rfl, formXyn_eq hc (Fin.ext ‹_›)⟩

theorem decode9_eq_ok {op : Word} {i : Instr} (hc : fieldC op = 0x9) (h : decode9 op = .ok i) : IsOpcodeOf op i := by
  unfold decode9 at h
  split at h <;> cases h
  exact ⟨rfl, formXyn_eq hc ‹_›⟩

theorem decodeE_eq_ok {op : Word} {i : Instr} (hc : fieldC op = 0xE) (h : decodeE op = .ok i) : IsOpcodeOf op i := by
  unfold decodeE at h
  repeat' split at h
  all_goals cases h
  all_goals exact ⟨rfl, formXkk_eq hc ‹_›⟩

theorem decodeF_eq_ok {op : Word} {i : Instr} (hc : fieldC op = 0xF) (h : decodeF op = .ok i) : IsOpcodeOf op i := by
  unfold decodeF at h
  repeat' split at h
  all_goals cases h
  all_goals exact ⟨rfl, formXkk_eq hc ‹_›⟩

/-- Settles O3: a word is put together again from the fields read off it and the codes it was dispatched on. -/
theorem encodeOfDecode : Obligations.EncodeOfDecode := by
  intro op i h
  have hC : ∀ {c : BitVec 4}, (fieldC op).toNat = c.toNat → fieldC op = c := BitVec.eq_of_toNat_eq
  unfold decodeWord at h
  split at h
  case h_1 hc => exact decode0_eq_ok (hC hc) h
  case h_6 hc => exact decode5_eq_ok (hC hc) h
  case h_9 hc => exact decode8_eq_ok (hC hc) h
  case h_10 hc => exact decode9_eq_ok (hC hc) h
  case h_15 hc => exact decodeE_eq_ok (hC hc) h
  case h_16 =>
    have hlt : (fieldC op).toNat < 2 ^ 4 := (fieldC op).isLt
    have hc : (fieldC op).toNat = 15 := by simp only [imp_false] at *; omega
    exact decodeF_eq_ok (hC hc) h
  case h_14 hc => cases h; exact ⟨rfl, formXyn_eq (hC hc) rfl⟩
  case h_2 hc | h_3 hc | h_11 hc | h_12 hc => cases h; exact ⟨rfl, formNnn_eq (hC hc)⟩
  case h_4 hc | h_5 hc | h_7 hc | h_8 hc | h_13 hc => cases h; exact ⟨rfl, formXkk_eq (hC hc) rfl⟩

/-! ### The two bytes of an instruction (R57, R80) -/

theorem decode_bytesOfWord_append {op : Word} {i : Instr} (h : decodeWord op = .ok i) (rest : List Byte) :
    decode (bytesOfWord op ++ rest) = .ok (i, rest) := by
  rw [bytesOfWord, List.cons_append, List.cons_append, List.nil_append, decode, wordOfBytes_bytesOfWord, h]

/-- Settles O5: the bytes of an opcode put together are the opcode, and that decodes to its instruction. -/
theorem decodeTakesTwoBytes : Obligations.DecodeTakesTwoBytes := by
  intro i rest hwf
  refine ⟨_, _, rfl, ?_, decode_bytesOfWord_append (decodeOfEncode i hwf) rest⟩
  rw [← toNat_wordOfBytes, wordOfBytes_bytesOfWord]

/-! ### What an instruction stores (R68)

`Claim.stored` says byte by byte what a completing instruction leaves in `Mem`: for the three that write it, by
`Memory.read_writeList`; the others leave `Mem` as it was. -/

theorem read_writeList_bcdDigits (s : State) (x : Reg) (a : Nat) :
    (s.mem.writeList s.i.toNat (bcdDigits (s.reg x))).read a = (stored (.ldBVx x) s a).getD (s.mem.read a) := by
  simp only [bcdDigits, Memory.writeList, Memory.read_write, stored]
  by_cases h0 : a = s.i.toNat
  · simp [h0, Nat.add_assoc]
  by_cases h1 : a = s.i.toNat + 1
  · simp [h1]
  by_cases h2 : a = s.i.toNat + 2
  · simp [h2]
  · simp [h0, h1, h2]

theorem read_writeList_regsUpTo (s : State) (x : Reg) (a : Nat) :
    (s.mem.writeList s.i.toNat (s.regsUpTo x)).read a = (stored (.ldMemVx x) s a).getD (s.mem.read a) := by
  obtain ⟨hl, hget⟩ := s.regsUpTo_eq x
  rw [Memory.read_writeList, stored]
  by_cases h : s.i.toNat ≤ a ∧ a ≤ s.i.toNat + x.val
  · rw [dif_pos h, dif_pos (by omega), hget _ _ (by omega), Option.getD_some]
  · rw [dif_neg h, dif_neg (by omega), Option.getD_none]

/-- The halves of a word as quotient and remainder (R57). -/
theorem bytesOfWord_eq (w : Word) :
    bytesOfWord w = [BitVec.ofNat 8 (w.toNat / 256), BitVec.ofNat 8 (w.toNat % 256)] := by
  have hhi : w.extractLsb' 8 8 = BitVec.ofNat 8 (w.toNat / 256) :=
    congrArg (BitVec.ofNat 8) (Nat.shiftRight_eq_div_pow w.toNat 8)
  have hlo : w.extractLsb' 0 8 = BitVec.ofNat 8 (w.toNat % 256) := by
    apply BitVec.eq_of_toNat_eq
    simp
  rw [bytesOfWord, hhi, hlo]

theorem read_writeList_pushed (s : State) (nnn : Addr) (a : Nat) :
    (s.mem.writeList s.sp.toNat (bytesOfWord (s.pc + 2))).read a = (stored (.call nnn) s a).getD (s.mem.read a) := by
  simp only [bytesOfWord_eq, Memory.writeList, Memory.read_write, stored]
  by_cases h0 : a = s.sp.toNat
  · simp [h0]
  by_cases h1 : a = s.sp.toNat + 1
  · simp [h1]
  · simp [h0, h1]

theorem stored_of_not_writesMem {i : Instr} (h : writesMem i = false) (s : State) (a : Nat) : stored i s a = none := by
  cases i with
  | call | ldBVx | ldMemVx => cases h
  | _ => rfl

/-- `Mem` after an instruction: the bytes it stored, and the old ones elsewhere. -/
theorem read_mem_of_exec {i : Instr} {s t : State} (h : exec i s = .next t) (a : Nat) :
    t.mem.read a = (stored i s a).getD (s.mem.read a) := by
  cases hw : writesMem i with
  | false =>
    obtain ⟨-, -, -, -, -, hmem, -⟩ := onlyListedWritersWrite i s t h
    rw [hmem hw, stored_of_not_writesMem hw, Option.getD_none]
  | true =>
    cases i with
    | call nnn => obtain ⟨-, rfl⟩ := exec_call_eq_next h; exact read_writeList_pushed s nnn a
    | ldBVx x => obtain ⟨-, rfl⟩ := exec_ldBVx_eq_next h; exact read_writeList_bcdDigits s x a
    | ldMemVx x => obtain ⟨-, rfl⟩ := exec_ldMemVx_eq_next h; exact read_writeList_regsUpTo s x a
    | _ => cases hw

/-- Settles O50: the fetch reads `Mem` as the instruction left it. -/
theorem storeSeenByNextFetch : Obligations.StoreSeenByNextFetch := by
  intro i s t h hpc
  refine ⟨_, fetch_of_pc_le hpc, ?_⟩
  rw [toNat_wordOfBytes, read_mem_of_exec h, read_mem_of_exec h]

/-! ### Words written out from the table (R95) -/

/-- Settles O1: each word is the encoding of its instruction, so it decodes to it. -/
theorem writtenOutWordsDecode : Obligations.WrittenOutWordsDecode :=
  ⟨decodeOfEncode (.ldByte 3 0x2A) rfl, decodeOfEncode (.jp 0x200) rfl, decodeOfEncode .cls rfl,
    decodeOfEncode (.ldI 0x234) rfl, decodeOfEncode (.sys 0x000) rfl, decodeOfEncode (.addReg 1 2) rfl,
    decodeOfEncode (.sneReg 1 2) rfl, decodeOfEncode (.ldDtVx 3) rfl, decodeOfEncode (.skp 1) rfl,
    decodeOfEncode (.drw 1 2 15) rfl⟩

end Sys2Proof.Proofs
end

section
/-!
PROOFS. The family of spec/40_control_flow.md: the two jumps. A jump is `State.setPc` of its target, so the next state
is the old one with that `PC`; what is left is the target as a number.
-/

namespace Sys2Proof.Proofs

open Sys2Proof.Machine

/-! ### The targets as numbers (R101, R103) -/

theorem toNat_addrWord (nnn : Addr) : (addrWord nnn).toNat = nnn.toNat :=
  BitVec.toNat_setWidth_of_le (by decide)

theorem toNat_regWord (s : State) (x : Reg) : (s.regWord x).toNat = (s.reg x).toNat :=
  BitVec.toNat_setWidth_of_le (by decide)

/-- Masking a word to 12 bits is its remainder at the size of `Mem`. -/
theorem toNat_and_0x0FFF (w : Word) : (w &&& 0x0FFF).toNat = w.toNat % 0x1000 :=
  (BitVec.toNat_and w 0x0FFF).trans (Nat.and_two_pow_sub_one_eq_mod w.toNat 12)

/-- The sum of an address and a register does not overflow 16 bits, so its mask is the remainder of the sum. -/
theorem toNat_offset_target (nnn : Addr) (s : State) :
    ((addrWord nnn + s.regWord 0) &&& 0x0FFF).toNat = (nnn.toNat + (s.reg 0).toNat) % 0x1000 := by
  have hsum : nnn.toNat + (s.reg 0).toNat < 2 ^ 16 := by
    have hn := nnn.isLt
    have hr := (s.reg 0).isLt
    omega
  rw [toNat_and_0x0FFF, BitVec.toNat_add, toNat_addrWord, toNat_regWord, Nat.mod_eq_of_lt hsum]

/-! ### The jumps -/

theorem exec_jp (nnn : Addr) (s : State) : exec (.jp nnn) s = .next (s.setPc (addrWord nnn)) := rfl

theorem exec_jpV0 (nnn : Addr) (s : State) :
    exec (.jpV0 nnn) s = .next (s.setPc ((addrWord nnn + s.regWord 0) &&& 0x0FFF)) := rfl

/-- Settles O15: the pattern is the encoding of the instruction, and the next state is `setPc` of the masked sum. -/
theorem jumpWithOffsetResult : Obligations.JumpWithOffsetResult := fun nnn s =>
  ⟨decodeOfEncode (.jpV0 nnn) rfl, _, exec_jpV0 nnn s, toNat_offset_target nnn s, rfl⟩

/-- Settles O14: the pattern is the encoding of the instruction, and the next state is `setPc` of the address. -/
theorem jumpResult : Obligations.JumpResult := fun nnn s =>
  ⟨decodeOfEncode (.jp nnn) rfl, _, exec_jp nnn s, toNat_addrWord nnn, rfl⟩

end Sys2Proof.Proofs
end

section
/-!
PROOFS. The family of spec/42_alu.md: `LD Vx, byte`. It ends in `State.writeResult`, so the rules of that update say what
the next state holds: the register written, the registers kept, and everything else but `PC`.
-/

namespace Sys2Proof.Proofs

open Sys2Proof.Machine

/-! ### Writing the result of an instruction (R21, R24) -/

theorem writeResult_reg_self (s : State) (x : Reg) (b : Byte) : (s.writeResult x b).reg x = b :=
  (s.setReg_reg x b x).trans (if_pos rfl)

theorem writeResult_reg_of_ne (s : State) (x : Reg) (b : Byte) {k : Reg} (h : k ≠ x) :
    (s.writeResult x b).reg k = s.reg k :=
  (s.setReg_reg x b k).trans (if_neg h)

theorem writeResult_frame (s : State) (x : Reg) (b : Byte) :
    s.writeResult x b = { s with v := (s.writeResult x b).v, pc := s.pc + 2 } := rfl

/-! ### The load of a byte -/

theorem exec_ldByte (x : Reg) (kk : Byte) (s : State) : exec (.ldByte x kk) s = .next (s.writeResult x kk) := rfl

/-- Settles O21: the pattern is the encoding of the instruction, and the next state is `writeResult` of the byte. -/
theorem loadByteResult : Obligations.LoadByteResult := fun x kk s =>
  ⟨decodeOfEncode (.ldByte x kk) rfl, s.writeResult x kk, exec_ldByte x kk s, writeResult_reg_self s x kk,
    fun _ hk => writeResult_reg_of_ne s x kk hk, rfl, writeResult_frame s x kk⟩

end Sys2Proof.Proofs
end

section
/-!
PROOFS. The family of spec/43_memory_index.md: the two loads of `I`, the two stores through `I` and the load through it.
A store or a load through `I` has two cases, the whole block inside `Mem` or a fault; `read_mem_of_exec` says what `Mem`
holds after a store, and the round trip of store and load is put together from their results.
-/

namespace Sys2Proof.Proofs

open Sys2Proof.Machine Sys2Proof.Claim

/-! ### A block of `Mem` at `I` (R62) -/

theorem writeBlock_index_of_le {s : State} {bs : List Byte} (h : s.i.toNat + bs.length ≤ 0x1000) :
    s.writeBlock s.indexAddr bs = .ok (s.setMem (s.mem.writeList s.i.toNat bs)) :=
  (s.writeBlock_eq s.i.toNat bs).trans (if_pos (.inr h))

theorem writeBlock_index_of_gt {s : State} {bs : List Byte} (hne : bs ≠ []) (h : 0x1000 < s.i.toNat + bs.length) :
    s.writeBlock s.indexAddr bs = .error (.addressFault (max (s.i.toNat : Int) 0x1000)) :=
  (s.writeBlock_eq s.i.toNat bs).trans (if_neg fun hor => hor.elim hne (Nat.not_le.2 h))

theorem readBlock_index_of_le {s : State} {n : Nat} (h : s.i.toNat + n ≤ 0x1000) :
    s.readBlock s.indexAddr n = .ok ((List.range n).map fun k => s.mem.read (s.i.toNat + k)) :=
  (s.readBlock_eq s.i.toNat n).trans (if_pos (.inr h))

theorem readBlock_index_of_gt {s : State} {n : Nat} (hne : n ≠ 0) (h : 0x1000 < s.i.toNat + n) :
    s.readBlock s.indexAddr n = .error (.addressFault (max (s.i.toNat : Int) 0x1000)) :=
  (s.readBlock_eq s.i.toNat n).trans (if_neg fun hor => hor.elim hne (Nat.not_le.2 h))

/-! ### The two loads of `I` (R140, R142) -/

theorem exec_ldI (nnn : Addr) (s : State) : exec (.ldI nnn) s = .next (s.setI (addrWord nnn)).advance := rfl

/-- Settles O30: the pattern is the encoding of the instruction, and the next state is `setI` of the address. -/
theorem loadIndexResult : Obligations.LoadIndexResult := fun nnn s =>
  ⟨decodeOfEncode (.ldI nnn) rfl, _, exec_ldI nnn s, toNat_addrWord nnn, rfl, rfl⟩

theorem exec_ldFVx (x : Reg) (s : State) :
    exec (.ldFVx x) s = .next (s.setI (BitVec.ofNat 16 ((s.reg x).toNat * 5))).advance := rfl

/-- Five times a byte fits in 16 bits. -/
theorem toNat_fontPointer (b : Byte) : (BitVec.ofNat 16 (b.toNat * 5)).toNat = b.toNat * 5 := by
  have hb := b.isLt
  rw [BitVec.toNat_ofNat, Nat.mod_eq_of_lt (by omega)]

/-- Settles O32: the pattern is the encoding of the instruction, and the next state is `setI` of the product. -/
theorem fontPointerResult : Obligations.FontPointerResult := fun x s =>
  ⟨decodeOfEncode (.ldFVx x) rfl, _, exec_ldFVx x s, toNat_fontPointer (s.reg x), rfl, rfl⟩

/-! ### `LD B, Vx` (R143) -/

theorem exec_ldBVx_of_le {x : Reg} {s : State} (h : s.i.toNat ≤ 0xFFD) :
    exec (.ldBVx x) s = .next (s.setMem (s.mem.writeList s.i.toNat (bcdDigits (s.reg x)))).advance := by
  have hfit : s.i.toNat + (bcdDigits (s.reg x)).length ≤ 0x1000 := Nat.add_le_add_right h 3
  rw [exec, execLdBVx, writeBlock_index_of_le hfit]
  rfl

theorem exec_ldBVx_of_gt {x : Reg} {s : State} (h : 0xFFD < s.i.toNat) :
    exec (.ldBVx x) s = .fault (.addressFault (max (s.i.toNat : Int) 0x1000)) := by
  have hne : bcdDigits (s.reg x) ≠ [] := List.cons_ne_nil _ _
  have hout : 0x1000 < s.i.toNat + (bcdDigits (s.reg x)).length := Nat.add_lt_add_right h 3
  rw [exec, execLdBVx, writeBlock_index_of_gt hne hout]
  rfl

theorem stored_ldBVx_of_outside {x : Reg} {s : State} {a : Nat} (h : a < s.i.toNat ∨ s.i.toNat + 2 < a) :
    stored (.ldBVx x) s a = none := by
  rw [stored, if_neg (by omega), if_neg (by omega), if_neg (by omega)]

/-- Settles O33: the three bytes stored are the digits, each below 256; outside them nothing is stored. -/
theorem bcdStoreResult : Obligations.BcdStoreResult := by
  intro x s
  refine ⟨decodeOfEncode (.ldBVx x) rfl, fun hle => ?_, exec_ldBVx_of_gt⟩
  have hexec := exec_ldBVx_of_le (x := x) hle
  have hread := read_mem_of_exec hexec
  have hb : (s.reg x).toNat < 256 := (s.reg x).isLt
  have hdigit : ∀ {n : Nat}, n < 256 → (BitVec.ofNat 8 n).toNat = n := fun hn =>
    (BitVec.toNat_ofNat _ 8).trans (Nat.mod_eq_of_lt hn)
  refine ⟨_, hexec, ?_, ?_, ?_, fun a ha => ?_, rfl, rfl⟩
  · rw [hread, stored, if_pos rfl]
    exact hdigit (by omega)
  · rw [hread, stored, if_neg (by omega), if_pos rfl]
    exact hdigit (by omega)
  · rw [hread, stored, if_neg (by omega), if_neg (by omega), if_pos rfl]
    exact hdigit (by omega)
  · rw [hread, stored_ldBVx_of_outside ha, Option.getD_none]

/-! ### `LD [I], Vx` (R144) -/

theorem length_regsUpTo (s : State) (x : Reg) : (s.regsUpTo x).length = x.val + 1 := (s.regsUpTo_eq x).1

theorem exec_ldMemVx_of_le {x : Reg} {s : State} (h : s.i.toNat + x.val ≤ 0xFFF) :
    exec (.ldMemVx x) s = .next (s.setMem (s.mem.writeList s.i.toNat (s.regsUpTo x))).advance := by
  have hl := length_regsUpTo s x
  rw [exec, execLdMemVx, writeBlock_index_of_le (by omega)]
  rfl

theorem exec_ldMemVx_of_gt {x : Reg} {s : State} (h : 0xFFF < s.i.toNat + x.val) :
    exec (.ldMemVx x) s = .fault (.addressFault (max (s.i.toNat : Int) 0x1000)) := by
  have hl := length_regsUpTo s x
  have hne : s.regsUpTo x ≠ [] := List.ne_nil_of_length_pos (by omega)
  rw [exec, execLdMemVx, writeBlock_index_of_gt hne (by omega)]
  rfl

theorem stored_ldMemVx {x k : Reg} (s : State) (h : k ≤ x) :
    stored (.ldMemVx x) s (s.i.toNat + k.val) = some (s.reg k) := by
  have hk : k.val ≤ x.val := h
  rw [stored, dif_pos (by omega)]
  simp only [Nat.add_sub_cancel_left]

theorem stored_ldMemVx_of_outside {x : Reg} {s : State} {a : Nat} (h : a < s.i.toNat ∨ s.i.toNat + x.val < a) :
    stored (.ldMemVx x) s a = none := by
  rw [stored, dif_neg (by omega)]

theorem read_mem_of_exec_ldMemVx {x k : Reg} {s t : State} (h : exec (.ldMemVx x) s = .next t) (hk : k ≤ x) :
    t.mem.read (s.i.toNat + k.val) = s.reg k := by
  rw [read_mem_of_exec h, stored_ldMemVx s hk, Option.getD_some]

/-- Settles O34: the bytes stored are the registers; outside them nothing is stored. -/
theorem storeRegistersResult : Obligations.StoreRegistersResult := by
  intro x s
  refine ⟨decodeOfEncode (.ldMemVx x) rfl, fun hle => ?_, exec_ldMemVx_of_gt⟩
  have hexec := exec_ldMemVx_of_le hle
  refine ⟨_, hexec, fun k hk => read_mem_of_exec_ldMemVx hexec hk, fun a ha => ?_, rfl, rfl⟩
  rw [read_mem_of_exec hexec, stored_ldMemVx_of_outside ha, Option.getD_none]

/-! ### `LD Vx, [I]` (R145) -/

/-- The state with `V[0..x]` loaded from `I` upward. -/
def loadedRegs (s : State) (x : Reg) : State :=
  s.setRegsFrom 0 ((List.range (x.val + 1)).map fun k => s.mem.read (s.i.toNat + k))

theorem loadedRegs_reg (s : State) (x k : Reg) :
    (loadedRegs s x).reg k = if k ≤ x then s.mem.read (s.i.toNat + k.val) else s.reg k := by
  rw [loadedRegs, State.setRegsFrom_reg _ _ _ (by simp)]
  by_cases hk : k ≤ x
  · have hlt : k.val < x.val + 1 := Nat.lt_succ_of_le hk
    rw [dif_pos (by simpa using hlt), if_pos hk]
    simp
  · have hge : ¬ k.val < x.val + 1 := fun hlt => hk (Nat.le_of_lt_succ hlt)
    rw [dif_neg (by simpa using hge), if_neg hk]

theorem loadedRegs_frame (s : State) (x : Reg) : loadedRegs s x = { s with v := (loadedRegs s x).v } :=
  s.setRegsFrom_frame 0 _

theorem exec_ldVxMem_of_le {x : Reg} {s : State} (h : s.i.toNat + x.val ≤ 0xFFF) :
    exec (.ldVxMem x) s = .next (loadedRegs s x).advance := by
  rw [exec, execLdVxMem, readBlock_index_of_le (by omega)]
  rfl

theorem exec_ldVxMem_of_gt {x : Reg} {s : State} (h : 0xFFF < s.i.toNat + x.val) :
    exec (.ldVxMem x) s = .fault (.addressFault (max (s.i.toNat : Int) 0x1000)) := by
  rw [exec, execLdVxMem, readBlock_index_of_gt (Nat.succ_ne_zero _) (by omega)]
  rfl

/-- Settles O35: `loadedRegs_reg` says what each register holds; nothing but registers and `PC` changes. -/
theorem loadRegistersResult : Obligations.LoadRegistersResult := by
  intro x s
  refine ⟨decodeOfEncode (.ldVxMem x) rfl, fun hle => ?_, exec_ldVxMem_of_gt⟩
  refine ⟨_, exec_ldVxMem_of_le hle, fun k hk => ?_, fun k hk => ?_, ?_, ?_⟩
  · rw [State.advance_reg, loadedRegs_reg, if_pos hk]
  · rw [State.advance_reg, loadedRegs_reg, if_neg (not_le.2 hk)]
  · rw [loadedRegs_frame]; rfl
  · rw [loadedRegs_frame]; rfl

/-! ### Stored and loaded again (R144, R145) -/

/-- Settles O36: a store that completes has its block inside `Mem`, and keeps `I`; so the load reads the same bytes,
which are the registers stored. -/
theorem storeThenLoadRegisters : Obligations.StoreThenLoadRegisters := by
  intro x s t v h
  obtain ⟨hfit, rfl⟩ := exec_ldMemVx_eq_next h
  refine ⟨_, exec_ldVxMem_of_le (show s.i.toNat + x.val ≤ 0xFFF by omega), fun k => ?_⟩
  rw [State.advance_reg, loadedRegs_reg]
  by_cases hk : k ≤ x
  · rw [if_pos hk, if_pos hk]
    exact read_mem_of_exec_ldMemVx h hk
  · rw [if_neg hk, if_neg hk]
    rfl

end Sys2Proof.Proofs
end

section
/-!
PROOFS. The family of spec/46_display.md: `CLS`. Its next state is `State.setScreen` of the cleared Screen and then
`State.advance`, so the rules of those two updates say what it holds: pixels that are all off, the old `PC` plus 2, and
every other field as it was.
-/

namespace Sys2Proof.Proofs

open Sys2Proof.Machine

theorem exec_cls (s : State) : exec .cls s = .next (s.setScreen Screen.clear).advance := rfl

theorem setScreen_advance_frame (s : State) (scr : Screen) :
    (s.setScreen scr).advance = { s with screen := scr, pc := s.pc + 2 } := rfl

/-- Settles O42: the pattern is the encoding of the instruction, and a pixel of the cleared Screen is off wherever it
is. -/
theorem clearScreenResult : Obligations.ClearScreenResult := by
  intro s
  refine ⟨decodeOfEncode .cls rfl, _, exec_cls s, fun px py _ _ => ?_, ?_, ?_⟩
  · rw [State.advance_screen, State.setScreen_screen, Screen.getPixel_clear]
  · rw [State.advance_pc, State.setScreen_pc]
  · exact setScreen_advance_frame s Screen.clear

end Sys2Proof.Proofs
end

section
/-!
PROOFS. The family of spec/47_sys_fill.md: the words that match no instruction. The table of R87 names them by command
nibble; the sub-decoder of each nibble is told once which function codes it rejects, and a rejected word that is fetched
is the fault of the step.
-/

namespace Sys2Proof.Proofs

open Sys2Proof.Machine Sys2Proof.Claim

/-! ### The function codes a sub-decoder rejects (R87) -/

theorem fieldN_ne_zero {op : Word} (h : op.toNat % 16 ≠ 0) : fieldN op ≠ 0 := fun e =>
  h ((fieldN_val op).symm.trans (congrArg Fin.val e))

theorem decode5_of_ne_zero {op : Word} (h : op.toNat % 16 ≠ 0) : decode5 op = .error (.illegal op) :=
  if_neg (fieldN_ne_zero h)

theorem decode9_of_ne_zero {op : Word} (h : op.toNat % 16 ≠ 0) : decode9 op = .error (.illegal op) :=
  if_neg (fieldN_ne_zero h)

theorem decode8_of_unlisted {op : Word} (h : op.toNat % 16 ∈ [8, 9, 0xA, 0xB, 0xC, 0xD, 0xF]) :
    decode8 op = .error (.illegal op) := by
  rw [← fieldN_val] at h
  unfold decode8
  split
  case h_10 => rfl
  all_goals rename_i hn; rw [hn] at h; exact absurd h (by decide)

theorem decodeE_of_unlisted {op : Word} (h : op.toNat % 256 ∉ [0x9E, 0xA1]) : decodeE op = .error (.illegal op) := by
  simp only [List.mem_cons, List.not_mem_nil, or_false, not_or] at h
  simp [decodeE, fieldKk_eq_iff, h]

theorem decodeF_of_unlisted {op : Word}
    (h : op.toNat % 256 ∉ [0x07, 0x0A, 0x15, 0x18, 0x1E, 0x29, 0x33, 0x55, 0x65]) :
    decodeF op = .error (.illegal op) := by
  simp only [List.mem_cons, List.not_mem_nil, or_false, not_or] at h
  simp [decodeF, fieldKk_eq_iff, h]

/-! ### The words of the table (R87, R181) -/

/-- A word in the table of R87 is rejected, by name and with the word. -/
theorem decodeWord_of_illegalPattern {op : Word} (h : IllegalPattern op) : decodeWord op = .error (.illegal op) := by
  unfold IllegalPattern at h
  unfold decodeWord
  rw [fieldC_toNat]
  rcases h with ⟨hc, hlo⟩ | ⟨hc, hlo⟩ | ⟨hc, hlo⟩ | ⟨hc, hff⟩ | ⟨hc, hff⟩ <;> rw [hc]
  · exact decode5_of_ne_zero hlo
  · exact decode8_of_unlisted hlo
  · exact decode9_of_ne_zero hlo
  · exact decodeE_of_unlisted hff
  · exact decodeF_of_unlisted hff

/-- The step of an enabled CPU whose fetched word the decoder rejects (R181, R221). -/
theorem step_of_fetch_reject {s : State} {op : Word} {r : Reject} (he : s.cpuEnabled = true) (hf : s.fetch = .ok op)
    (hd : decodeWord op = .error r) : step s = .fault (.decodeFault op s.pc) := by
  rw [step_of_enabled he, cpuStep_of_fetch_ok hf, executeWord_of_decode_error s hd]
  rfl

/-- Settles O9: below the top of `Mem` the fetch gives the word at `PC`, and the decoder rejects it. -/
theorem stepFaultsOnIllegalWord : Obligations.StepFaultsOnIllegalWord := by
  intro s op he hpc hop hill
  have hf : s.fetch = .ok op := hop ▸ fetch_of_pc_le hpc
  exact step_of_fetch_reject he hf (decodeWord_of_illegalPattern hill)

end Sys2Proof.Proofs
end

section
/-!
PROOFS. The family of spec/50_interfaces.md: the environment's turn, the two answers of the environment an instruction
may read, and the host's control of the engine. That no other instruction reads an answer is one case analysis,
`exec_withAnswers`: an instruction commutes with a change of the answers it does not read.
-/

namespace Sys2Proof.Proofs

open Sys2Proof.Machine Sys2Proof.Claim

/-! ### The turn of the environment (R192, R193, R200) -/

/-- What the environment presents after `n` ticks, the ticks taken one after the other. -/
theorem present_eq_iterate (s : State) (n : Nat) (key : Option Key) (rnd : Byte) :
    s.present n key rnd = { (State.timerTick^[n] s) with pressedKey := key, rnd := rnd } := by
  rw [State.present, State.timerTicks_eq_iterate]

/-- While the schedule lasts, its oldest entry is the turn. -/
theorem turn_of_inputs_cons {s : State} {u : Turn} {rest : List Turn} (h : s.inputs = u :: rest) :
    s.turn = ({ s.present u.ticks u.key u.rnd with inputs := rest }).hostCommands u.host := by
  rw [State.turn, h]
  rfl

/-- After the schedule's end the turn takes the free values, with no host operation. -/
theorem turn_of_inputs_nil {s : State} (h : s.inputs = []) :
    s.turn = { s.present (Config.freeTicks s.turns) (Config.freeKey s.turns) (Config.freeByte s.turns) with
      turns := s.turns + 1 } := by
  unfold State.turn
  split
  next u rest hcons => rw [h] at hcons; cases hcons
  next => rfl

/-- Settles O12: the two cases of the schedule, with the ticks one by one and the host's operations as a fold. -/
theorem turnIsTicksThenHost : Obligations.TurnIsTicksThenHost := by
  refine fun s => ⟨fun u rest h => ?_, fun h => ?_⟩
  · rw [turn_of_inputs_cons h, State.hostCommands_eq_foldl, present_eq_iterate]
  · rw [turn_of_inputs_nil h, present_eq_iterate]

/-! ### Another answer of the environment (R191, R200) -/

/-- The state with the keyboard's answer and the random byte changed, each by a function of its own. -/
def withAnswers (key : Option Key → Option Key) (rnd : Byte → Byte) (s : State) : State :=
  { s with pressedKey := key s.pressedKey, rnd := rnd s.rnd }

section Answers

variable (key : Option Key → Option Key) (rnd : Byte → Byte) (s : State)

theorem reg_withAnswers (x : Reg) : (withAnswers key rnd s).reg x = s.reg x := rfl

theorem regsUpTo_withAnswers (x : Reg) : (withAnswers key rnd s).regsUpTo x = s.regsUpTo x := rfl

theorem pressedKey_withAnswers : (withAnswers key rnd s).pressedKey = key s.pressedKey := rfl

theorem pc_withAnswers : (withAnswers key rnd s).pc = s.pc := rfl

theorem sp_withAnswers : (withAnswers key rnd s).sp = s.sp := rfl

theorem memRead2_withAnswers (a : Int) : (withAnswers key rnd s).memRead2 a = s.memRead2 a := rfl

theorem readBlock_index_withAnswers (n : Nat) :
    (withAnswers key rnd s).readBlock (withAnswers key rnd s).indexAddr n = s.readBlock s.indexAddr n := by
  rw [State.indexAddr, State.readBlock_eq, State.indexAddr, State.readBlock_eq]
  rfl

theorem writeBlock_index_withAnswers (bs : List Byte) :
    (withAnswers key rnd s).writeBlock (withAnswers key rnd s).indexAddr bs =
      (s.writeBlock s.indexAddr bs).map (withAnswers key rnd) := by
  rw [State.indexAddr, State.writeBlock_eq, State.indexAddr, State.writeBlock_eq, apply_ite (Except.map _)]
  rfl

theorem memWrite2_withAnswers (a : Int) (w : Word) :
    (withAnswers key rnd s).memWrite2 a w = (s.memWrite2 a w).map (withAnswers key rnd) := by
  rw [State.memWrite2_eq, State.memWrite2_eq, apply_ite (Except.map _)]
  rfl

theorem setRegsFrom_withAnswers (k : Nat) (bs : List Byte) :
    (withAnswers key rnd s).setRegsFrom k bs = withAnswers key rnd (s.setRegsFrom k bs) := by
  induction bs generalizing s k with
  | nil => rfl
  | cons b rest ih =>
    rw [State.setRegsFrom, State.setRegsFrom]
    split
    next hk => exact ih (s.setReg ⟨k, hk⟩ b) (k + 1)
    next => rfl

/-- An instruction commutes with a change of the answers, if it reads none of the answers changed. -/
theorem exec_withAnswers {i : Instr} (hkey : readsKey i = false ∨ key = id)
    (hrnd : (∀ x kk, i ≠ .rnd x kk) ∨ rnd = id) :
    exec i (withAnswers key rnd s) = mapNext (withAnswers key rnd) (exec i s) := by
  cases i with
  | skp x | sknp x =>
    obtain ⟨⟨⟩⟩ | rfl := hkey
    rfl
  | ldVxK x =>
    obtain ⟨⟨⟩⟩ | rfl := hkey
    rw [exec, exec, execLdVxK, execLdVxK, pressedKey_withAnswers, id_eq]
    cases s.pressedKey with
    | none | some => rfl
  | rnd x kk =>
    obtain rfl := hrnd.resolve_left fun h => h x kk rfl
    rfl
  | ret =>
    rw [exec, exec, execRet, execRet, memRead2_withAnswers, sp_withAnswers]
    cases s.memRead2 ((s.sp.toNat : Int) - 2) with
    | error | ok => rfl
  | call nnn =>
    rw [exec, exec, execCall, execCall, memWrite2_withAnswers, sp_withAnswers, pc_withAnswers]
    cases s.memWrite2 (s.sp.toNat : Int) (s.pc + 2) with
    | error | ok => rfl
  | drw x y n =>
    rw [exec, exec, execDrw, execDrw, readBlock_index_withAnswers]
    cases s.readBlock s.indexAddr n.val with
    | error | ok => rfl
  | ldVxMem x =>
    rw [exec, exec, execLdVxMem, execLdVxMem, readBlock_index_withAnswers]
    cases s.readBlock s.indexAddr (x.val + 1) with
    | error f => rfl
    | ok bs => simp only [setRegsFrom_withAnswers]; rfl
  | ldBVx x =>
    rw [exec, exec, execLdBVx, execLdBVx, writeBlock_index_withAnswers, reg_withAnswers]
    cases s.writeBlock s.indexAddr (bcdDigits (s.reg x)) with
    | error | ok => rfl
  | ldMemVx x =>
    rw [exec, exec, execLdMemVx, execLdMemVx, writeBlock_index_withAnswers, regsUpTo_withAnswers]
    cases s.writeBlock s.indexAddr (s.regsUpTo x) with
    | error | ok => rfl
  | _ => rfl

end Answers

/-- Settles O49: a new key, and a new random byte, is a change of one answer that keeps the other. -/
theorem onlyKeyAndRandomReadTheEnvironment : Obligations.OnlyKeyAndRandomReadTheEnvironment := fun _ s =>
  ⟨fun hkey k => exec_withAnswers (fun _ => k) id s (.inl hkey) (.inr rfl),
    fun hrnd r => exec_withAnswers id (fun _ => r) s (.inr rfl) (.inl hrnd)⟩

/-! ### The host's control of the engine (R205, R207, R208) -/

/-- `reset` of an engine whose CPU is not enabled (R205, R250). -/
theorem hostReset_of_disabled {s : State} (h : s.cpuEnabled = false) :
    s.hostReset = { State.reset with pressedKey := s.pressedKey, rnd := s.rnd, inputs := s.inputs, turns := s.turns } :=
  if_neg (Bool.eq_false_iff.1 h)

/-- `stop` changes the run loop alone, and leaves it ended (R208). -/
theorem hostStop_frame (s : State) : s.hostStop = { s with loop := s.hostStop.loop } ∧ s.hostStop.loop ≠ .active := by
  unfold State.hostStop
  split
  next => exact ⟨rfl, nofun⟩
  next h => exact ⟨rfl, by simp [h]⟩
  next h => exact ⟨rfl, by simp [h]⟩

/-- Settles O57: an engine that is paused, stopped or faulted has its CPU disabled, which is when `reset` acts and what
`stop` brings about. -/
theorem hostControl : Obligations.HostControl := by
  intro s
  obtain ⟨hframe, hended⟩ := hostStop_frame s
  exact ⟨fun h => hostReset_of_disabled (cpuEnabled_eq_false h), rfl, rfl, hframe, hended,
    cpuEnabled_eq_false (.inr hended)⟩

/-- With nothing loaded the first fetch after reset reads zeros (R38, R58). -/
theorem fetch_reset_resume : State.reset.hostResume.fetch = .ok 0x0000 := by
  have hzero : ∀ a, 0x64 ≤ a → State.reset.hostResume.mem.read a = 0 := fun _ => read_nil_above_fonts
  rw [fetch_of_pc_le (by decide), hzero _ (by decide), hzero _ (by decide)]
  rfl

/-- Settles O59: the word fetched is a `SYS`, whose meaning is the fault (R180). -/
theorem resumeWithNothingLoadedFaults : Obligations.ResumeWithNothingLoadedFaults :=
  step_of_fetch_decode (State.cpuEnabled_iff.2 ⟨rfl, rfl⟩) fetch_reset_resume (decodeOfEncode (.sys 0) rfl)

end Sys2Proof.Proofs
end

section
/-!
PROOFS. The family of spec/60_exceptions.md: which faults an instruction raises, and what is left after one. Each
instruction answers as its row of R223's table says; the rows with a word access follow the three ranges of
`wordAccessBigEndian`, the rows with a block at `I` the two of `writeBlock_index_of_le` and its companions.
-/

namespace Sys2Proof.Proofs

open Sys2Proof.Machine Sys2Proof.Claim

/-! ### The table of faults (R223) -/

/-- The outcome is the fault of a table entry, or a next state where the entry gives none. -/
def AnswersAs (entry : Option Fault) (r : Result) : Prop :=
  match entry with
  | some f => r = .fault f
  | none => ∃ t, r = .next t

theorem answersAs_iff {entry : Option Fault} {r : Result} :
    AnswersAs entry r ↔ (∀ f, entry = some f → r = .fault f) ∧ (entry = none → ∃ t, r = .next t) := by
  cases entry <;> simp [AnswersAs]

/-- An entry that gives a fault under a condition, and otherwise what the rest of the entry says. -/
theorem answersAs_ite {p : Prop} [Decidable p] {f : Fault} {rest : Option Fault} {r : Result}
    (hout : p → r = .fault f) (hin : ¬ p → AnswersAs rest r) : AnswersAs (if p then some f else rest) r := by
  by_cases h : p
  · rw [if_pos h]; exact hout h
  · rw [if_neg h]; exact hin h

/-- The entry of an instruction that makes one access and then completes. -/
def accessFault {α : Type} (access : Except Fault α) : Option Fault :=
  match access with
  | .error f => some f
  | .ok _ => none

/-! The word of `SYS`, and the one access of `RET`, `CALL` and `DRW`. -/

theorem formNnn_zero (nnn : Addr) : formNnn 0x0 nnn = addrWord nnn :=
  (BitVec.setWidth_eq_append (by decide)).symm

theorem exec_ret_answersAs_access (s : State) :
    AnswersAs (accessFault (s.memRead2 ((s.sp.toNat : Int) - 2))) (exec .ret s) := by
  rw [exec, execRet]
  cases s.memRead2 ((s.sp.toNat : Int) - 2) with
  | error f => rfl
  | ok w => exact ⟨_, rfl⟩

theorem exec_call_answersAs_access (nnn : Addr) (s : State) :
    AnswersAs (accessFault (s.memWrite2 (s.sp.toNat : Int) (s.pc + 2))) (exec (.call nnn) s) := by
  rw [exec, execCall]
  cases s.memWrite2 (s.sp.toNat : Int) (s.pc + 2) with
  | error f => rfl
  | ok u => exact ⟨_, rfl⟩

theorem exec_drw_answersAs_access (x y : Reg) (n : Fin 16) (s : State) :
    AnswersAs (accessFault (s.readBlock s.indexAddr n.val)) (exec (.drw x y n) s) := by
  rw [exec, execDrw]
  cases s.readBlock s.indexAddr n.val with
  | error f => rfl
  | ok bs => exact ⟨_, rfl⟩

/-! The rows of these three in the table. -/

/-- `RET` reads the word below `SP` (R100): out of range, at the last byte, or inside `Mem`. -/
theorem exec_ret_answersAs (s : State) : AnswersAs (faultOf .ret s) (exec .ret s) := by
  have hacc := exec_ret_answersAs_access s
  obtain ⟨hin, htop, hout⟩ := wordAccessBigEndian s ((s.sp.toNat : Int) - 2) 0
  refine answersAs_ite (fun h => ?_) fun h => answersAs_ite (fun h' => ?_) fun h' => ?_
  · rw [(hout (by omega)).1] at hacc
    exact hacc
  · rw [(htop (by omega)).1] at hacc
    exact hacc
  · obtain ⟨⟨w, hw, -⟩, -⟩ := hin (by omega)
    rw [hw] at hacc
    exact hacc

/-- `CALL` writes a word at `SP` (R102): out of range, at the last byte, or inside `Mem`. -/
theorem exec_call_answersAs (nnn : Addr) (s : State) : AnswersAs (faultOf (.call nnn) s) (exec (.call nnn) s) := by
  have hacc := exec_call_answersAs_access nnn s
  obtain ⟨hin, htop, hout⟩ := wordAccessBigEndian s (s.sp.toNat : Int) (s.pc + 2)
  refine answersAs_ite (fun h => ?_) fun h => answersAs_ite (fun h' => ?_) fun h' => ?_
  · rw [(hout (by omega)).2] at hacc
    exact hacc
  · rw [(htop (by omega)).2] at hacc
    exact hacc
  · obtain ⟨-, u, hu, -⟩ := hin (by omega)
    rw [hu] at hacc
    exact hacc

/-- `DRW` reads `n` bytes at `I` (R171); with `n = 0` it reads none and cannot fault. -/
theorem exec_drw_answersAs (x y : Reg) (n : Fin 16) (s : State) :
    AnswersAs (faultOf (.drw x y n) s) (exec (.drw x y n) s) := by
  have hacc := exec_drw_answersAs_access x y n s
  refine answersAs_ite (fun ⟨hpos, hgt⟩ => ?_) fun h => ?_
  · rw [readBlock_index_of_gt hpos.ne' hgt] at hacc
    exact hacc
  · rw [State.indexAddr, State.readBlock_eq, if_pos (by omega)] at hacc
    exact hacc

/-- The table of R223, row by row: the instructions without an access always complete. -/
theorem exec_answersAs_faultOf (i : Instr) (s : State) : AnswersAs (faultOf i s) (exec i s) := by
  cases i with
  | sys nnn =>
    rw [faultOf, formNnn_zero]
    rfl
  | ret => exact exec_ret_answersAs s
  | call nnn => exact exec_call_answersAs nnn s
  | drw x y n => exact exec_drw_answersAs x y n s
  | ldBVx x => exact answersAs_ite (fun h => exec_ldBVx_of_gt (by omega)) fun h => ⟨_, exec_ldBVx_of_le (by omega)⟩
  | ldMemVx x => exact answersAs_ite exec_ldMemVx_of_gt fun h => ⟨_, exec_ldMemVx_of_le (Nat.not_lt.1 h)⟩
  | ldVxMem x => exact answersAs_ite exec_ldVxMem_of_gt fun h => ⟨_, exec_ldVxMem_of_le (Nat.not_lt.1 h)⟩
  | _ => exact ⟨_, rfl⟩

/-- Settles O46: every instruction answers as its row of the table. -/
theorem faultsAreExactlyTheTable : Obligations.FaultsAreExactlyTheTable := fun i s =>
  answersAs_iff.1 (exec_answersAs_faultOf i s)

/-! ### After a fault (R224, R226) -/

/-- When a step faults, the system goes on from the state before it, with the run loop ended (R226). -/
theorem systemStep_of_fault {s : State} {f : Fault} (h : step s = .fault f) : systemStep s = (s.endByFault f).turn := by
  rw [step] at h
  rw [systemStep, h]

/-- Settles O51: the faulting step leaves `endByFault` of the state before it, and the turn after it keeps the frame of
`State.turn_frame`; so the run loop stays ended and the CPU disabled. -/
theorem faultCommitsNothing : Obligations.FaultCommitsNothing := by
  intro s f h hhost
  have hframe := (s.endByFault f).turn_frame hhost
  rw [← systemStep_of_fault h] at hframe
  have hloop : (systemStep s).loop = .faulted f := congrArg State.loop hframe
  exact ⟨hloop, cpuEnabled_eq_false (.inr (by simp [hloop])), hframe⟩

end Sys2Proof.Proofs
end

section
/-!
PROOFS. The family of spec/70_reset_and_hazards.md: the boot sequence. `hostCommands_boot` names the state the three
host commands end with; what the first fetch reads follows from the cells the ROM was written to.
-/

namespace Sys2Proof.Proofs

open Sys2Proof.Machine

/-! ### The boot sequence (R251, R252) -/

/-- The engine after `reset`, `load` of a ROM and `resume`: the reset state with the ROM at `0x200`, running. What the
outside presents is as it was (R250). -/
def booted (s : State) (rom : List Byte) : State :=
  { State.reset with
    pressedKey := s.pressedKey, rnd := s.rnd, inputs := s.inputs, turns := s.turns,
    mem := State.reset.mem.writeList 0x200 rom, loaded := true, run := .running }

/-- The reset state is paused, so it accepts the ROM (R206). -/
theorem hostCommands_boot {s : State} {rom : List Byte} (h : s.cpuEnabled = false) (hlen : rom.length ≤ 3584) :
    s.hostCommands [.reset, .load rom, .resume] = booted s rom := by
  have hload := hostLoad_accepted (s := s.hostReset) (by rw [hostReset_of_disabled h]; rfl) hlen
  change (s.hostReset.hostLoad rom).1.hostResume = booted s rom
  rw [hload, hostReset_of_disabled h]
  rfl

/-- The first fetch of a booted engine reads the ROM's first two bytes (R58, R252). -/
theorem fetch_booted (s : State) (hi lo : Byte) (rest : List Byte) :
    (booted s (hi :: lo :: rest)).fetch = .ok (wordOfBytes hi lo) := by
  have hpc : (booted s (hi :: lo :: rest)).pc.toNat = 0x200 := rfl
  have hmem : (booted s (hi :: lo :: rest)).mem = State.reset.mem.writeList 0x200 (hi :: lo :: rest) := rfl
  have hlen : (hi :: lo :: rest).length = rest.length + 2 := rfl
  rw [fetch_of_pc_le (by omega), hpc, hmem, Memory.read_writeList, Memory.read_writeList, dif_pos (by omega),
    dif_pos (by omega)]
  rfl

/-- Settles O58: the commands end with `booted`, which is running, with its run loop active and `PC` at `0x200`. -/
theorem bootRunsTheRom : Obligations.BootRunsTheRom := by
  intro s hi lo rest hs hrest
  have hlen : (hi :: lo :: rest).length ≤ 3584 := Nat.add_le_add_right hrest 2
  rw [hostCommands_boot (cpuEnabled_eq_false hs) hlen]
  exact ⟨State.cpuEnabled_iff.2 ⟨rfl, rfl⟩, rfl, rfl, fetch_booted s hi lo rest⟩

end Sys2Proof.Proofs
end

section
/-!
PROOFS. The family of spec/30_encoding.md, completed: the words that the decoder rejects are those of R87's table.
-/

namespace Sys2Proof.Proofs

open Sys2Proof.Machine Sys2Proof.Claim

/-- Settles O4: a word of the table is rejected, and a word that is rejected is in the table. -/
theorem rejectedWordsAreTheTable : Obligations.RejectedWordsAreTheTable := by
  refine fun op => ⟨decodeWord_of_illegalPattern, fun hlegal => ?_⟩
  cases hd : decodeWord op with
  | ok i => exact ⟨i, rfl⟩
  | error r => exact absurd (illegalPattern_of_decodeWord_error hd) hlegal

end Sys2Proof.Proofs
end

section
/-!
PROOFS. The family of spec/40_control_flow.md, completed: `CALL`, `RET` and the two together. The table of faults says
that they complete, and `exec_call_eq_next` and `exec_ret_eq_next` in which state.
-/

namespace Sys2Proof.Proofs

open Sys2Proof.Machine Sys2Proof.Claim

/-- A word stored big-endian reads back (R57). -/
theorem wordOfBytes_read_writeList (m : Memory) (a : Nat) (w : Word) :
    wordOfBytes ((m.writeList a (bytesOfWord w)).read a) ((m.writeList a (bytesOfWord w)).read (a + 1)) = w := by
  rw [Memory.read_writeList, Memory.read_writeList]
  simpa [bytesOfWord] using wordOfBytes_bytesOfWord w

theorem stored_call_of_outside {nnn : Addr} {s : State} {a : Nat} (h : a ≠ s.sp.toNat) (h' : a ≠ s.sp.toNat + 1) :
    stored (.call nnn) s a = none := by
  rw [stored, if_neg h, if_neg h']

/-- Settles O16: the entry at `SP` reads back as `PC + 2`, and `CALL` stores nothing outside it. -/
theorem callResult : Obligations.CallResult := by
  intro nnn s hsp
  have hnofault : faultOf (.call nnn) s = none := (if_neg (by omega)).trans (if_neg (by omega))
  obtain ⟨t, hexec⟩ := (faultsAreExactlyTheTable (.call nnn) s).2 hnofault
  have hread := read_mem_of_exec hexec
  obtain ⟨-, rfl⟩ := exec_call_eq_next hexec
  refine ⟨_, hexec, toNat_addrWord nnn, rfl, wordOfBytes_read_writeList _ _ _, fun a h h' => ?_, rfl⟩
  rw [hread, stored_call_of_outside h h', Option.getD_none]

/-- Settles O17: the entry below `SP` is the word at `SP - 2` and `SP - 1`. -/
theorem returnResult : Obligations.ReturnResult := by
  intro s hlo hhi
  have hnofault : faultOf .ret s = none := (if_neg (by omega)).trans (if_neg (by omega))
  obtain ⟨t, hexec⟩ := (faultsAreExactlyTheTable .ret s).2 hnofault
  obtain ⟨-, -, rfl⟩ := exec_ret_eq_next hexec
  have hsp : BitVec.ofInt 16 ((s.sp.toNat : Int) - 2) = s.sp - 2 := by
    have h2 := toNat_ofInt_sub_two hlo
    bv_omega
  rw [hexec, hsp, show s.sp.toNat - 2 + 1 = s.sp.toNat - 1 by omega]
  rfl

/-- Settles O18: the `CALL` leaves `SP` 2 above its entry, where the `RET` finds `PC + 2`, wherever the `RET` stands. -/
theorem callThenReturnComesBack : Obligations.CallThenReturnComesBack := by
  intro nnn s t hcall
  obtain ⟨hsp, rfl⟩ := exec_call_eq_next hcall
  have hsp' : (s.sp + 2).toNat = s.sp.toNat + 2 := by bv_omega
  have hback : s.sp + 2 - 2 = s.sp := by bv_omega
  refine ⟨_, returnResult _ ?_ ?_, ?_, hback, rfl, rfl, fun pc' => returnResult _ ?_ ?_⟩
  case refine_3 =>
    simp only [State.setPc_sp, State.setSp_sp, State.setPc_mem, State.setSp_mem, State.setMem_mem, hsp']
    exact wordOfBytes_read_writeList _ _ _
  all_goals simp only [State.setPc_sp, State.setSp_sp, hsp']; omega

end Sys2Proof.Proofs
end

section
/-!
PROOFS. The family of spec/41_skips.md. A skip is `State.skipIf` of a comparison of two bytes, which is stated here as a
comparison of their numbers.
-/

namespace Sys2Proof.Proofs

open Sys2Proof.Machine

theorem skipIf_eq (s : State) (c : Bool) : s.skipIf c = { s with pc := if c then s.pc + 4 else s.pc + 2 } := by
  cases c <;> rfl

theorem skipIf_beq (s : State) (a b : Byte) :
    s.skipIf (a == b) = { s with pc := if a.toNat = b.toNat then s.pc + 4 else s.pc + 2 } := by
  simp only [skipIf_eq, beq_iff_eq, BitVec.toNat_inj]

theorem skipIf_bne (s : State) (a b : Byte) :
    s.skipIf (a != b) = { s with pc := if a.toNat = b.toNat then s.pc + 2 else s.pc + 4 } := by
  simp only [skipIf_eq, bne_iff_ne, ne_eq, ite_not, BitVec.toNat_inj]

theorem exec_seByte (x : Reg) (kk : Byte) (s : State) : exec (.seByte x kk) s = .next (s.skipIf (s.reg x == kk)) := rfl

theorem exec_sneByte (x : Reg) (kk : Byte) (s : State) :
    exec (.sneByte x kk) s = .next (s.skipIf (s.reg x != kk)) := rfl

theorem exec_seReg (x y : Reg) (s : State) : exec (.seReg x y) s = .next (s.skipIf (s.reg x == s.reg y)) := rfl

theorem exec_sneReg (x y : Reg) (s : State) : exec (.sneReg x y) s = .next (s.skipIf (s.reg x != s.reg y)) := rfl

/-- Settles O19: the two comparisons of `V[x]` with the byte. -/
theorem skipOnByteResult : Obligations.SkipOnByteResult := fun x kk s =>
  ⟨by rw [exec_seByte, skipIf_beq], by rw [exec_sneByte, skipIf_bne]⟩

/-- Settles O20: the two comparisons of `V[x]` with `V[y]`. -/
theorem skipOnRegisterResult : Obligations.SkipOnRegisterResult := fun x y s =>
  ⟨by rw [exec_seReg, skipIf_beq], by rw [exec_sneReg, skipIf_bne]⟩

end Sys2Proof.Proofs
end

section
/-!
PROOFS. The family of spec/42_alu.md, completed. The instructions without a flag end in `State.writeResult`. The five
with one end in `State.flagThenResult`, and `flagThenResult_toNat` gives all the cases of its two operands once, for the
flag and the result as numbers.
-/

namespace Sys2Proof.Proofs

open Sys2Proof.Machine Sys2Proof.Claim

/-! ### Results without a flag (R122 to R126, R132) -/

theorem exec_addByte (x : Reg) (kk : Byte) (s : State) :
    exec (.addByte x kk) s = .next (s.writeResult x (s.reg x + kk)) := rfl

/-- Settles O22: the next state is `writeResult` of the sum. -/
theorem addByteResult : Obligations.AddByteResult := fun x kk s =>
  ⟨_, exec_addByte x kk s, (congrArg BitVec.toNat (writeResult_reg_self s x _)).trans (BitVec.toNat_add _ _),
    fun _ hk => writeResult_reg_of_ne s x _ hk, rfl, writeResult_frame s x _⟩

/-- An instruction that writes a bit-by-bit operation of its operands to `V[x]`. -/
theorem bitwiseResult_of_exec {i : Instr} {x y : Reg} {f : Bool → Bool → Bool} (op : Byte → Byte → Byte)
    (hexec : ∀ s, exec i s = .next (s.writeResult x (op (s.reg x) (s.reg y))))
    (hop : ∀ (a b : Byte) (n : Nat), (op a b).getLsbD n = f (a.getLsbD n) (b.getLsbD n)) : BitwiseResult i x y f :=
  fun s => ⟨_, hexec s, fun n _ => by rw [writeResult_reg_self, hop],
    fun _ hk => writeResult_reg_of_ne s x _ hk, rfl, writeResult_frame s x _⟩

/-- Settles O23: each of the four operations is its Boolean function on every bit. -/
theorem copyAndLogicResult : Obligations.CopyAndLogicResult := fun _ _ =>
  ⟨bitwiseResult_of_exec (fun _ b => b) (fun _ => rfl) fun _ _ _ => rfl,
    bitwiseResult_of_exec (· ||| ·) (fun _ => rfl) fun _ _ _ => BitVec.getLsbD_or,
    bitwiseResult_of_exec (· &&& ·) (fun _ => rfl) fun _ _ _ => BitVec.getLsbD_and,
    bitwiseResult_of_exec (· ^^^ ·) (fun _ => rfl) fun _ _ _ => BitVec.getLsbD_xor⟩

theorem exec_rnd (x : Reg) (kk : Byte) (s : State) : exec (.rnd x kk) s = .next (s.writeResult x (s.rnd &&& kk)) := rfl

/-- No bit outside a mask is left. -/
theorem and_mask_and_not_mask (r kk : Byte) : r &&& kk &&& ~~~kk = 0 := by
  rw [BitVec.and_assoc, BitVec.and_not_self]
  exact BitVec.and_zero

/-- Settles O29: the next state is `writeResult` of the byte presented, under the mask. -/
theorem randomResult : Obligations.RandomResult := by
  intro x kk r s
  have hx := writeResult_reg_self { s with rnd := r } x (r &&& kk)
  refine ⟨_, exec_rnd x kk _, fun n => ?_, ?_, fun k hk => writeResult_reg_of_ne _ x _ hk, rfl, writeResult_frame _ x _⟩
  · rw [hx, BitVec.getLsbD_and]
  · rw [hx, and_mask_and_not_mask]

/-! ### The flag and then the result (R120; D7) -/

/-- The two writes as numbers, in the four cases of `x` and `y`: a register that is `VF` is read again as the flag `c`.
`r` is the result of two operands as numbers. -/
theorem flagThenResult_toNat (s : State) (x y : Reg) (flag result : Byte → Byte → Byte) (r : Nat → Nat → Nat) {c : Nat}
    (hflag : (flag (s.reg x) (s.reg y)).toNat = c) (hresult : ∀ a b, (result a b).toNat = r a.toNat b.toNat) :
    let t := s.flagThenResult x y flag result
    (x ≠ 0xF → y ≠ 0xF → (t.reg x).toNat = r (s.reg x).toNat (s.reg y).toNat ∧ (t.reg 0xF).toNat = c) ∧
    (x ≠ 0xF → y = 0xF → (t.reg x).toNat = r (s.reg x).toNat c ∧ (t.reg 0xF).toNat = c) ∧
    (x = 0xF → y ≠ 0xF → (t.reg 0xF).toNat = r c (s.reg y).toNat) ∧
    (x = 0xF → y = 0xF → (t.reg 0xF).toNat = r c c) ∧
    (∀ k, k ≠ x → k ≠ 0xF → t.reg k = s.reg k) := by
  obtain ⟨hreg, -⟩ := s.flagThenResult_spec x y flag result
  subst hflag
  refine ⟨fun hx hy => ?_, fun hx hy => ?_, fun hx hy => ?_, fun hx hy => ?_, fun k hkx hkF => ?_⟩
  · simp [hreg, regF, hx, hy, Ne.symm hx, hresult]
  · subst hy
    simp [hreg, regF, hx, Ne.symm hx, hresult]
  · subst hx
    simp [hreg, regF, hy, hresult]
  · subst hx hy
    simp [hreg, regF, hresult]
  · exact (hreg k).trans ((if_neg hkx).trans (if_neg hkF))

theorem toNat_flagByte (p : Prop) [Decidable p] : (flagByte (decide p)).toNat = if p then 1 else 0 := by
  by_cases h : p <;> simp [flagByte, h]

/-- The difference modulo 256 (R128, R133). -/
theorem toNat_sub_byte (a b : Byte) : (a - b).toNat = (a.toNat + 256 - b.toNat) % 256 := by
  have hb := b.isLt
  rw [BitVec.toNat_sub]
  omega

theorem toNat_flagShr (a : Byte) : (flagShr a).toNat = a.toNat % 2 :=
  (BitVec.toNat_and a 1).trans (Nat.and_two_pow_sub_one_eq_mod a.toNat 1)

/-- The flag of `SHL` is bit 7 where it stands (R131). -/
theorem toNat_flagShl (a : Byte) : (flagShl a).toNat = if a.toNat ≥ 128 then 0x80 else 0 := by
  revert a
  decide

theorem exec_addReg (x y : Reg) (s : State) :
    exec (.addReg x y) s = .next (s.flagThenResult x y flagAdd (· + ·)) := rfl

theorem exec_subReg (x y : Reg) (s : State) :
    exec (.subReg x y) s = .next (s.flagThenResult x y flagSub (· - ·)) := rfl

theorem exec_subnReg (x y : Reg) (s : State) :
    exec (.subnReg x y) s = .next (s.flagThenResult x y flagSubn (· - ·)) := rfl

theorem exec_shr (x y : Reg) (s : State) :
    exec (.shr x y) s = .next (s.flagThenResult x x (fun a _ => flagShr a) fun a _ => a >>> 1) := rfl

theorem exec_shl (x y : Reg) (s : State) :
    exec (.shl x y) s = .next (s.flagThenResult x x (fun a _ => flagShl a) fun a _ => a <<< 1) := rfl

/-- Settles O24: with `x = y = F` the carry is bit 7 of `VF`, and it is added to itself. -/
theorem addWithCarryResult : Obligations.AddWithCarryResult := by
  intro x y s
  obtain ⟨hxy, hxF, hFy, hFF, hkept⟩ :=
    flagThenResult_toNat s x y flagAdd (· + ·) (fun a b => (a + b) % 256) (toNat_flagByte _) BitVec.toNat_add
  refine ⟨_, exec_addReg x y s, hxy, hxF, hFy, fun hx hy => (hFF hx hy).trans ?_, hkept, rfl, rfl⟩
  subst hx hy
  split <;> split <;> omega

/-- Settles O25: with `x = y = F` the flag is subtracted from itself. -/
theorem subtractResult : Obligations.SubtractResult := by
  intro x y s
  obtain ⟨hxy, hxF, hFy, hFF, hkept⟩ :=
    flagThenResult_toNat s x y flagSub (· - ·) (fun a b => (a + 256 - b) % 256) (toNat_flagByte _) toNat_sub_byte
  refine ⟨_, exec_subReg x y s, hxy, hxF, hFy, fun hx hy => (hFF hx hy).trans ?_, hkept, rfl, rfl⟩
  rw [Nat.add_sub_cancel_left]

/-- Settles O26: the difference is that of `SUB`, the flag the opposite comparison. -/
theorem subtractNResult : Obligations.SubtractNResult := by
  intro x y s
  obtain ⟨hxy, hxF, hFy, hFF, hkept⟩ :=
    flagThenResult_toNat s x y flagSubn (· - ·) (fun a b => (a + 256 - b) % 256) (toNat_flagByte _) toNat_sub_byte
  refine ⟨_, exec_subnReg x y s, hxy, hxF, hFy, fun hx hy => (hFF hx hy).trans ?_, hkept, rfl, rfl⟩
  rw [Nat.add_sub_cancel_left]

/-- Settles O27: the operands are both `V[x]`; with `x = F` the flag, 0 or 1, is halved. -/
theorem shiftRightResult : Obligations.ShiftRightResult := by
  intro x y s
  obtain ⟨hxx, -, -, hFF, hkept⟩ :=
    flagThenResult_toNat s x x (fun a _ => flagShr a) (fun a _ => a >>> 1) (fun a _ => a / 2) (toNat_flagShr _)
      fun a _ => BitVec.toNat_ushiftRight a 1
  refine ⟨_, exec_shr x y s, fun hx => hxx hx hx, fun hx => ?_, hkept, rfl, rfl⟩
  exact BitVec.eq_of_toNat_eq ((hFF hx hx).trans (Nat.div_eq_of_lt (Nat.mod_lt _ two_pos)))

/-- Settles O28: the operands are both `V[x]`; with `x = F` the flag, 0 or `0x80`, is doubled modulo 256. -/
theorem shiftLeftResult : Obligations.ShiftLeftResult := by
  intro x y s
  obtain ⟨hxx, -, -, hFF, hkept⟩ :=
    flagThenResult_toNat s x x (fun a _ => flagShl a) (fun a _ => a <<< 1) (fun a _ => a * 2 % 256) (toNat_flagShl _)
      fun a _ => by rw [BitVec.toNat_shiftLeft, Nat.shiftLeft_eq]
  refine ⟨_, exec_shl x y s, fun hx => hxx hx hx, fun hx => ?_, hkept, rfl, rfl⟩
  exact BitVec.eq_of_toNat_eq ((hFF hx hx).trans (by split <;> rfl))

end Sys2Proof.Proofs
end

section
/-!
PROOFS. The families of spec/43_memory_index.md and spec/44_timers.md, completed: `ADD I, Vx`, and the three
instructions that copy between a register and a timer.
-/

namespace Sys2Proof.Proofs

open Sys2Proof.Machine

theorem exec_addIVx (x : Reg) (s : State) : exec (.addIVx x) s = .next (s.setI (s.i + s.regWord x)).advance := rfl

/-- Settles O31: the next state is `setI` of the sum, in 16 bits. -/
theorem addIndexResult : Obligations.AddIndexResult := by
  refine fun x s => ⟨_, exec_addIVx x s, ?_, rfl, rfl⟩
  rw [State.advance_i, State.setI_i, BitVec.toNat_add, toNat_regWord]

theorem exec_ldVxDt (x : Reg) (s : State) : exec (.ldVxDt x) s = .next (s.writeResult x s.dt) := rfl

theorem exec_ldDtVx (x : Reg) (s : State) : exec (.ldDtVx x) s = .next (s.setDt (s.reg x)).advance := rfl

theorem exec_ldStVx (x : Reg) (s : State) : exec (.ldStVx x) s = .next (s.setSt (s.reg x)).advance := rfl

/-- Settles O37: `writeResult` of `DT`, `setDt` and `setSt` of the register. -/
theorem timerInstructionResults : Obligations.TimerInstructionResults := fun x s =>
  ⟨⟨_, exec_ldVxDt x s, writeResult_reg_self s x s.dt, fun _ hk => writeResult_reg_of_ne s x s.dt hk, rfl,
    writeResult_frame s x s.dt⟩, exec_ldDtVx x s, exec_ldStVx x s⟩

end Sys2Proof.Proofs
end

section
/-!
PROOFS. The family of spec/45_keys.md: the two skips on the pressed key, and the key wait, which ends with a key pressed
and stutters without one.
-/

namespace Sys2Proof.Proofs

open Sys2Proof.Machine

/-! ### The skips (R160, R161) -/

theorem keyIs_iff {s : State} {b : Byte} : s.keyIs b = true ↔ ∃ k : Key, s.pressedKey = some k ∧ k.val = b.toNat := by
  unfold State.keyIs
  cases s.pressedKey <;> simp

theorem exec_skp (x : Reg) (s : State) : exec (.skp x) s = .next (s.skipIf (s.keyIs (s.reg x))) := rfl

theorem exec_sknp (x : Reg) (s : State) : exec (.sknp x) s = .next (s.skipIf (!s.keyIs (s.reg x))) := rfl

/-- Settles O39: in each of the two cases `keyIs` has its value, and the two skips take it and its opposite. -/
theorem keySkipResults : Obligations.KeySkipResults := by
  refine fun x s => ⟨fun hkey => ?_, fun hkey => ?_⟩
  · rw [exec_skp, exec_sknp, keyIs_iff.2 hkey]
    exact ⟨rfl, rfl⟩
  · have hno : s.keyIs (s.reg x) = false := Bool.eq_false_iff.2 fun h =>
      (keyIs_iff.1 h).elim fun k ⟨hk, hval⟩ => hkey k hk hval
    rw [exec_skp, exec_sknp, hno]
    exact ⟨rfl, rfl⟩

/-! ### The key wait (R162; D17) -/

theorem exec_ldVxK_of_some (x : Reg) {s : State} {k : Key} (h : s.pressedKey = some k) :
    exec (.ldVxK x) s = .next (s.writeResult x (BitVec.ofNat 8 k.val)) := by
  rw [exec, execLdVxK, h]

theorem exec_ldVxK_of_none (x : Reg) {s : State} (h : s.pressedKey = none) : exec (.ldVxK x) s = .next s := by
  rw [exec, execLdVxK, h]

/-- Settles O40: the next state is `writeResult` of the key's number, which fits in a byte. -/
theorem keyWaitCompletes : Obligations.KeyWaitCompletes := by
  refine fun x s k hk => ⟨_, exec_ldVxK_of_some x hk, ?_, fun _ hj => writeResult_reg_of_ne s x _ hj, rfl,
    writeResult_frame s x _⟩
  rw [writeResult_reg_self, BitVec.toNat_ofNat, Nat.mod_eq_of_lt (k.isLt.trans (by decide))]

/-- Settles O41: the step is the turn alone, and a turn with no host operation keeps `PC`, `Mem` and the engine's run
state (`State.turn_frame`). -/
theorem keyWaitStutters : Obligations.KeyWaitStutters := by
  intro x s hkey
  have hexec := exec_ldVxK_of_none x hkey
  refine ⟨hexec, fun he hf => ⟨?_, fun hhost => ?_⟩⟩
  · rw [step_of_fetch_decode he hf (decodeOfEncode (.ldVxK x) rfl), hexec]
    rfl
  · have hframe := s.turn_frame hhost
    exact ⟨by rw [hframe], (congrArg State.fetch hframe).trans hf, (congrArg State.cpuEnabled hframe).trans he⟩

end Sys2Proof.Proofs
end

section
/-!
PROOFS. The family of spec/46_display.md, completed: `DRW`. Its next state has the Screen after the flips of the sprite's
pixels, one by one, and in `VF` their collision; the pixels of the sprite are those of `Claim.SpriteOn`. What two draws of
the same sprite do is put together from `effects_of_exec_drw`, used twice.
-/

namespace Sys2Proof.Proofs

open Sys2Proof.Machine Sys2Proof.Claim

/-! ### The pixels of a sprite (R171) -/

/-- The pixels that the 1 bits of the sprite of `DRW Vx, Vy, n` fall on. -/
def spriteOf (s : State) (x y : Reg) (n : Nat) : List (Nat × Nat) :=
  spritePixels (s.reg x).toNat (s.reg y).toNat ((List.range n).map fun k => s.mem.read (s.i.toNat + k)) 0

theorem mem_spriteOf {s : State} {x y : Reg} {n px py : Nat} :
    (px, py) ∈ spriteOf s x y n ↔ SpriteOn s x y n px py := by
  rw [spriteOf, mem_spritePixels]
  constructor
  · rintro ⟨row, hrow, col, hcol, hbit, hp⟩
    obtain ⟨rfl, rfl⟩ := Prod.mk.inj hp
    exact ⟨row, col, by simpa using hrow, hcol, by simpa using hbit, rfl, by rw [Nat.zero_add]⟩
  · rintro ⟨row, col, hrow, hcol, hbit, rfl, rfl⟩
    exact ⟨row, by simpa using hrow, col, hcol, by simpa using hbit, by rw [Nat.zero_add]⟩

/-- A sprite pixel is on the grid: both its coordinates are reduced. -/
theorem onGrid_of_spriteOn {s : State} {x y : Reg} {n px py : Nat} (h : SpriteOn s x y n px py) :
    px < 64 ∧ py < 32 := by
  obtain ⟨row, col, -, -, -, rfl, rfl⟩ := h
  exact ⟨Nat.mod_lt _ screenW_pos, Nat.mod_lt _ screenH_pos⟩

theorem spriteOf_onGrid (s : State) (x y : Reg) (n : Nat) : ∀ p ∈ spriteOf s x y n, p.1 < Config.screenW := fun _ hp =>
  (onGrid_of_spriteOn (mem_spriteOf.1 hp)).1

/-- A sprite of at most 15 rows visits no pixel twice. -/
theorem spriteOf_nodup (s : State) (x y : Reg) (n : Fin 16) : (spriteOf s x y n.val).Nodup := by
  refine spritePixels_nodup ?_
  rw [List.length_map, List.length_range]
  exact n.isLt.le.trans (by decide)

/-! ### One draw -/

/-- The Screen and the collision after the flips of the sprite's pixels. -/
def drawnBy (s : State) (x y : Reg) (n : Nat) : Screen × Bool := (spriteOf s x y n).foldl flipPixel (s.screen, false)

/-- The XOR of the Screen with the sprite (R171). -/
theorem getPixel_drawnBy (s : State) (x y : Reg) (n : Fin 16) {px py : Nat} (hx : px < 64) :
    (drawnBy s x y n.val).1.getPixel px py = true ↔
      (PixelOn s px py ∧ ¬ SpriteOn s x y n.val px py) ∨ (¬ PixelOn s px py ∧ SpriteOn s x y n.val px py) := by
  have hflip := (foldl_flipPixel _ (spriteOf_nodup s x y n) (spriteOf_onGrid s x y n.val) (s.screen, false)).1 px py hx
  rw [drawnBy, hflip, PixelOn, ← mem_spriteOf]
  by_cases hon : (px, py) ∈ spriteOf s x y n.val <;> simp [hon]

/-- The collision: a pixel of the sprite was on (R171). -/
theorem collision_drawnBy (s : State) (x y : Reg) (n : Fin 16) :
    (drawnBy s x y n.val).2 = true ↔ ∃ px py, PixelOn s px py ∧ SpriteOn s x y n.val px py := by
  rw [drawnBy, (foldl_flipPixel _ (spriteOf_nodup s x y n) (spriteOf_onGrid s x y n.val) (s.screen, false)).2]
  simp only [Bool.false_or, decide_eq_true_eq, Prod.exists, mem_spriteOf, PixelOn, and_comm]

/-- `DRW` completes when its bytes lie in `Mem`, or it has none. -/
theorem exec_drw_of_fits {n : Fin 16} {s : State} (x y : Reg) (h : n.val = 0 ∨ s.i.toNat + n.val ≤ 0x1000) :
    exec (.drw x y n) s =
      .next ((s.setScreen (drawnBy s x y n.val).1).writeResult regF (flagCollision (drawnBy s x y n.val).2)) := by
  rw [exec, execDrw, State.indexAddr, State.readBlock_eq, if_pos h, drawnBy, spriteOf, ← drawSprite_eq_flips]
  rfl

theorem fits_of_exec_drw {x y : Reg} {n : Fin 16} {s t : State} (h : exec (.drw x y n) s = .next t) :
    n.val = 0 ∨ s.i.toNat + n.val ≤ 0x1000 := by
  by_contra hout
  have hfault := (faultsAreExactlyTheTable (.drw x y n) s).1 _ (if_pos (by omega))
  rw [h] at hfault
  cases hfault

/-- Settles O43: the pixels and the collision of the flips; `VF` is the one register written. -/
theorem drawResult : Obligations.DrawResult := by
  intro x y n s hfits
  refine ⟨_, exec_drw_of_fits x y hfits, fun px py hx _ => getPixel_drawnBy s x y n hx, fun hhit => ?_, fun hno => ?_,
    fun k hk => writeResult_reg_of_ne _ _ _ hk, rfl, rfl⟩
  · refine (writeResult_reg_self _ regF _).trans ?_
    rw [(collision_drawnBy s x y n).2 hhit]
    rfl
  · refine (writeResult_reg_self _ regF _).trans ?_
    rw [Bool.eq_false_iff.2 (mt (collision_drawnBy s x y n).1 hno)]
    rfl

/-! ### The same sprite drawn twice -/

/-- What a `DRW` that completes has done: the XOR, the collision in `VF`, and nothing to where the sprite is, unless it is
placed by `VF` (R171). -/
theorem effects_of_exec_drw {x y : Reg} {n : Fin 16} {s t : State} (h : exec (.drw x y n) s = .next t) :
    (∀ px py, px < 64 → py < 32 → (PixelOn t px py ↔ (PixelOn s px py ↔ ¬ SpriteOn s x y n.val px py))) ∧
      (t.reg 0xF = 1 ↔ ∃ px py, SpriteOn s x y n.val px py ∧ PixelOn s px py) ∧
      (x ≠ 0xF → y ≠ 0xF → SpriteOn t x y n.val = SpriteOn s x y n.val) ∧ t.i = s.i := by
  obtain ⟨t', ht', hpix, hhit, hno, hkept, -, hframe⟩ := drawResult x y n s (fits_of_exec_drw h)
  obtain rfl : t' = t := Host.Outcome.next.inj (ht'.symm.trans h)
  have hi : t'.i = s.i := by rw [hframe]
  have hmem : t'.mem = s.mem := by rw [hframe]
  refine ⟨fun px py hx hy => (hpix px py hx hy).trans ?_, ?_, fun hx hy => ?_, hi⟩
  · by_cases hs : SpriteOn s x y n.val px py <;> simp [hs]
  · simp only [and_comm (a := SpriteOn s _ _ _ _ _)]
    refine ⟨fun hf => by_contra fun hp => ?_, hhit⟩
    rw [hno hp] at hf
    cases hf
  · funext px py
    rw [SpriteOn, SpriteOn, hi, hmem, hkept x hx, hkept y hy]

theorem screen_wf_of_exec_drw {x y : Reg} {n : Fin 16} {s t : State} (h : exec (.drw x y n) s = .next t)
    (hs : s.screen.wf) : t.screen.wf := by
  obtain ⟨bs, drawn, -, rfl, rfl⟩ := exec_drw_eq_next h
  exact drawSprite_wf _ _ bs 0 hs

/-- Settles O44: the first draw leaves the sprite where it is; each pixel of it is flipped twice, and is on before the
second draw exactly when it was off before the first. -/
theorem drawTwiceRestoresScreen : Obligations.DrawTwiceRestoresScreen := by
  intro x y n s t hwf hx hy hst
  obtain ⟨hpix, hVF, hsame, hi⟩ := effects_of_exec_drw hst
  have htu := exec_drw_of_fits x y (hi ▸ fits_of_exec_drw hst)
  obtain ⟨hpix', hVF', -, -⟩ := effects_of_exec_drw htu
  rw [hsame hx hy] at hpix' hVF'
  have hflip : ∀ px py, SpriteOn s x y n.val px py → (PixelOn t px py ↔ ¬ PixelOn s px py) := fun px py hs => by
    obtain ⟨hpx, hpy⟩ := onGrid_of_spriteOn hs
    rw [hpix px py hpx hpy]
    simp [hs]
  simp only [and_congr_right (hflip _ _)] at hVF'
  refine ⟨_, htu, ?_, hVF, hVF', ?_⟩
  · have huwf := screen_wf_of_exec_drw htu (screen_wf_of_exec_drw hst hwf)
    refine Screen.ext_of_getPixel huwf hwf fun px py hpx hpy => ?_
    refine Bool.eq_iff_iff.2 ((hpix' px py hpx hpy).trans ?_)
    rw [hpix px py hpx hpy, ← PixelOn]
    by_cases hs : SpriteOn s x y n.val px py <;> simp [hs]
  · rintro ⟨px, py, hs⟩
    by_cases hp : PixelOn s px py
    · exact .inl (hVF.2 ⟨px, py, hs, hp⟩)
    · exact .inr (hVF'.2 ⟨px, py, hs, hp⟩)

end Sys2Proof.Proofs
end

section
/-!
PROOFS. The families of spec/47_sys_fill.md and spec/50_interfaces.md, completed: `SYS`, and the sound output.
-/

namespace Sys2Proof.Proofs

open Sys2Proof.Machine

theorem exec_sys (nnn : Addr) (s : State) : exec (.sys nnn) s = .fault (.decodeFault (addrWord nnn) s.pc) := rfl

/-- Settles O45: the word of the fault is the address zero-extended. -/
theorem sysAlwaysFaults : Obligations.SysAlwaysFaults := fun nnn s => by
  rw [exec_sys, addrWord, BitVec.ofNat_toNat]

/-! ### The sound output (R203; D19) -/

theorem soundOn_iff {s : State} : s.soundOn = true ↔ s.st.toNat ≠ 0 := by
  rw [State.soundOn, bne_iff_ne, ne_eq, ← BitVec.toNat_inj]
  rfl

theorem audioCall_eq_noteOn {s t : State} :
    audioCall s t = some .noteOn ↔ ¬ s.soundOn = true ∧ t.soundOn = true := by
  unfold audioCall
  cases s.soundOn <;> cases t.soundOn <;> decide

theorem audioCall_eq_noteOff {s t : State} :
    audioCall s t = some .noteOff ↔ s.soundOn = true ∧ ¬ t.soundOn = true := by
  unfold audioCall
  cases s.soundOn <;> cases t.soundOn <;> decide

theorem toNat_st_timerTick (s : State) : s.timerTick.st.toNat = s.st.toNat - 1 := tickDown_toNat s.st

/-- Settles O38: an edge is a change of `ST ≠ 0`; a tick lowers `ST`, so it makes the falling edge alone, from 1. -/
theorem soundFollowsSt : Obligations.SoundFollowsSt := by
  refine fun s t => ⟨soundOn_iff, ?_, ?_, ?_, ?_⟩ <;>
    simp only [audioCall_eq_noteOn, audioCall_eq_noteOff, soundOn_iff, toNat_st_timerTick, ne_eq] <;>
    omega

end Sys2Proof.Proofs
end
